-- ==== Sys2Proof/Word.lean ====
section
/-! DEFINITION. The widths of the machine: cells and registers of 8 bits, words of 16, address immediates of 12,
register numbers 0..15 (spec 00_scope R7, R10; 10_state R20). -/

namespace Sys2Proof

/-- A memory cell or a general register: 8 bits, unsigned (R7, R11). -/
abbrev Byte := BitVec 8

/-- An instruction word, I, pc, a stack entry: 16 bits (R7). -/
abbrev Word := BitVec 16

/-- The address immediate nnn: 12 bits (R81). -/
abbrev Addr := BitVec 12

/-- A register number; every value names a register (R20, R83). -/
abbrev Reg := Fin 16

/-- VF, the register that the flag-writing instructions also write (R21). -/
abbrev vf : Reg := 15

end Sys2Proof
end

