-- ==== Sys2Proof/Config.lean ====
section
/-! DEFINITION. What is fixed for the machine (spec 00_scope R7), the default font (10_state R27) and the one free
value, the random byte (41_alu R144). -/

namespace Sys2Proof.Config

/-- Number of memory cells (R7). -/
def memSize : Nat := 4096

/-- The largest program image, 4096 - 512 bytes (R7, R223). -/
def progMax : Nat := 3584

/-- Load address of the image and reset value of pc (R7, R293). -/
def progBase : Nat := 512

/-- Bytes of FONT, at addresses 0..79 (R7, R57). -/
def fontSize : Nat := 80

/-- Bytes of one glyph: Fx29 multiplies by it (R162). -/
def glyphSize : Nat := 5

/-- Glyphs 0..7 of the default FONT (R27). PRESUMED: general knowledge by the spec's own mark; unsafe for claims about
the pixels of a glyph only; log 2. -/
def fontLow : Vector Byte 40 :=
  #v[0xF0, 0x90, 0x90, 0x90, 0xF0,  0x20, 0x60, 0x20, 0x20, 0x70,
     0xF0, 0x10, 0xF0, 0x80, 0xF0,  0xF0, 0x10, 0xF0, 0x10, 0xF0,
     0x90, 0x90, 0xF0, 0x10, 0x10,  0xF0, 0x80, 0xF0, 0x10, 0xF0,
     0xF0, 0x80, 0xF0, 0x90, 0xF0,  0xF0, 0x10, 0x20, 0x40, 0x40]

/-- Glyphs 8..F of the default FONT (R27). PRESUMED as fontLow; log 2. -/
def fontHigh : Vector Byte 40 :=
  #v[0xF0, 0x90, 0xF0, 0x90, 0xF0,  0xF0, 0x90, 0xF0, 0x10, 0xF0,
     0xF0, 0x90, 0xF0, 0x90, 0x90,  0xE0, 0x90, 0xE0, 0x90, 0xE0,
     0xF0, 0x80, 0x80, 0x80, 0xF0,  0xE0, 0x90, 0x90, 0x90, 0xE0,
     0xF0, 0x80, 0xF0, 0x80, 0xF0,  0xF0, 0x80, 0xF0, 0x80, 0x80]

/-- The default of the parameter FONT (R8, R27). PRESUMED; log 2. -/
def defaultFont : Vector Byte 80 := fontLow ++ fontHigh

/-- The byte the random source supplies to the k-th executed Cxnn (R144): a free value, nothing constrains it; safe;
log 3. -/
opaque randomByte : Nat → Byte

end Sys2Proof.Config
end

