-- ==== Sys2Proof/Syntax.lean ====
section
/-! DEFINITION. The 34 instructions, one constructor per row of spec/opcode_table.json (spec 30_encoding R84).
Meanings stand in Machine/. -/

namespace Sys2Proof

/-- An instruction with its operands (R81, R83): register numbers x and y, immediates nn and nnn, and the row count
n of a sprite, a number that WellFormed bounds by 15. The y of 8xy6 and 8xyE is kept although the hardware ignores it
(R87), so that an instruction holds every bit of its word. -/
inductive Instr where
  /-- 00E0, clear the framebuffer (R180). -/
  | cls
  /-- 00EE, return from subroutine (R108). -/
  | ret
  /-- 1nnn, jump (R109). -/
  | jp (nnn : Addr)
  /-- 2nnn, call subroutine (R110). -/
  | call (nnn : Addr)
  /-- 3xnn, skip if Vx = nn (R111). -/
  | seImm (x : Reg) (nn : Byte)
  /-- 4xnn, skip if Vx ≠ nn (R112). -/
  | sneImm (x : Reg) (nn : Byte)
  /-- 5xy0, skip if Vx = Vy (R113). -/
  | seReg (x y : Reg)
  /-- 6xnn, load immediate (R132). -/
  | ldImm (x : Reg) (nn : Byte)
  /-- 7xnn, add immediate, no flag (R133). -/
  | addImm (x : Reg) (nn : Byte)
  /-- 8xy0, copy register (R134). -/
  | ldReg (x y : Reg)
  /-- 8xy1, bitwise OR (R135). -/
  | orReg (x y : Reg)
  /-- 8xy2, bitwise AND (R136). -/
  | andReg (x y : Reg)
  /-- 8xy3, bitwise exclusive OR (R137). -/
  | xorReg (x y : Reg)
  /-- 8xy4, add with carry flag (R138). -/
  | addReg (x y : Reg)
  /-- 8xy5, Vx - Vy with no-borrow flag (R139). -/
  | subReg (x y : Reg)
  /-- 8xy6, shift right by one in place; y is ignored (R140). -/
  | shr (x y : Reg)
  /-- 8xy7, Vy - Vx with no-borrow flag (R141). -/
  | subnReg (x y : Reg)
  /-- 8xyE, shift left by one in place; y is ignored (R142). -/
  | shl (x y : Reg)
  /-- 9xy0, skip if Vx ≠ Vy (R114). -/
  | sneReg (x y : Reg)
  /-- Annn, load index (R160). -/
  | ldI (nnn : Addr)
  /-- Bnnn, jump to nnn + V0 (R115). -/
  | jpV0 (nnn : Addr)
  /-- Cxnn, masked random byte (R143). -/
  | rnd (x : Reg) (nn : Byte)
  /-- Dxyn, XOR-draw a sprite of n rows (R181). -/
  | drw (x y : Reg) (n : Nat)
  /-- Ex9E, skip if key Vx is pressed (R200). -/
  | skp (x : Reg)
  /-- ExA1, skip if key Vx is not pressed (R201). -/
  | sknp (x : Reg)
  /-- Fx07, read the delay timer (R202). -/
  | ldVxDt (x : Reg)
  /-- Fx0A, wait for a key press (R203). -/
  | ldVxK (x : Reg)
  /-- Fx15, set the delay timer (R204). -/
  | ldDtVx (x : Reg)
  /-- Fx18, set the sound timer (R205). -/
  | ldStVx (x : Reg)
  /-- Fx1E, add register to index, with range flag (R161). -/
  | addI (x : Reg)
  /-- Fx29, address of font glyph (R162). -/
  | ldF (x : Reg)
  /-- Fx33, store binary-coded decimal (R163). -/
  | ldB (x : Reg)
  /-- Fx55, store V0..Vx (R164). -/
  | storeRegs (x : Reg)
  /-- Fx65, load V0..Vx (R165). -/
  | loadRegs (x : Reg)
deriving DecidableEq, Repr

end Sys2Proof
end

