-- ==== Sys2Proof/Decode.lean ====
section
/-! DEFINITION. The fields of a word, the decoder and the encoder (spec 30_encoding R80 to R88; 20_memory R52). -/

namespace Sys2Proof

/-! ### Fields (R81) -/

/-- opc[15:12], the major opcode. -/
def fieldTop (w : Word) : BitVec 4 := w.extractLsb' 12 4

/-- opc[11:8], the first register number. -/
def fieldX (w : Word) : Reg := (w.extractLsb' 8 4).toFin

/-- opc[7:4], the second register number. -/
def fieldY (w : Word) : Reg := (w.extractLsb' 4 4).toFin

/-- opc[3:0], sprite height or minor function code. -/
def fieldN (w : Word) : BitVec 4 := w.extractLsb' 0 4

/-- opc[7:0], byte immediate or minor function code. -/
def fieldNN (w : Word) : Byte := w.extractLsb' 0 8

/-- opc[11:0], address immediate. -/
def fieldNNN (w : Word) : Addr := w.extractLsb' 0 12

/-! ### Decoder (R85) -/

/-- Top nibble 0: the two fixed words (R85). -/
def decodeFix (w : Word) : Option Instr :=
  if w = 0x00E0 then some .cls
  else if w = 0x00EE then some .ret
  else none

/-- Top nibble 8, by the minor function code n (R85). -/
def decodeAlu (w : Word) : Option Instr :=
  let x := fieldX w
  let y := fieldY w
  match (fieldN w).toNat with
  | 0x0 => some (.ldReg x y)
  | 0x1 => some (.orReg x y)
  | 0x2 => some (.andReg x y)
  | 0x3 => some (.xorReg x y)
  | 0x4 => some (.addReg x y)
  | 0x5 => some (.subReg x y)
  | 0x6 => some (.shr x y)
  | 0x7 => some (.subnReg x y)
  | 0xE => some (.shl x y)
  | _ => none

/-- Top nibble E, by nn (R85). -/
def decodeKey (w : Word) : Option Instr :=
  if fieldNN w = 0x9E then some (.skp (fieldX w))
  else if fieldNN w = 0xA1 then some (.sknp (fieldX w))
  else none

/-- Top nibble F, by nn (R85). -/
def decodeMisc (w : Word) : Option Instr :=
  let x := fieldX w
  if fieldNN w = 0x07 then some (.ldVxDt x)
  else if fieldNN w = 0x0A then some (.ldVxK x)
  else if fieldNN w = 0x15 then some (.ldDtVx x)
  else if fieldNN w = 0x18 then some (.ldStVx x)
  else if fieldNN w = 0x1E then some (.addI x)
  else if fieldNN w = 0x29 then some (.ldF x)
  else if fieldNN w = 0x33 then some (.ldB x)
  else if fieldNN w = 0x55 then some (.storeRegs x)
  else if fieldNN w = 0x65 then some (.loadRegs x)
  else none

/-- The decoder, a function of the word alone; `none` is ILLEGAL (R85, R86). -/
def decodeWord (w : Word) : Option Instr :=
  match (fieldTop w).toNat with
  | 0x0 => decodeFix w
  | 0x1 => some (.jp (fieldNNN w))
  | 0x2 => some (.call (fieldNNN w))
  | 0x3 => some (.seImm (fieldX w) (fieldNN w))
  | 0x4 => some (.sneImm (fieldX w) (fieldNN w))
  | 0x5 => if fieldN w = 0 then some (.seReg (fieldX w) (fieldY w)) else none
  | 0x6 => some (.ldImm (fieldX w) (fieldNN w))
  | 0x7 => some (.addImm (fieldX w) (fieldNN w))
  | 0x8 => decodeAlu w
  | 0x9 => if fieldN w = 0 then some (.sneReg (fieldX w) (fieldY w)) else none
  | 0xA => some (.ldI (fieldNNN w))
  | 0xB => some (.jpV0 (fieldNNN w))
  | 0xC => some (.rnd (fieldX w) (fieldNN w))
  | 0xD => some (.drw (fieldX w) (fieldY w) (fieldN w).toNat)
  | 0xE => decodeKey w
  | 0xF => decodeMisc w
  | _ => none

/-- Two bytes, high byte first, as one word (R52). -/
def wordOfBytes (hi lo : Byte) : Word := hi ++ lo

/-- Bits 15..8 of a word, the byte at the lower address (R52). -/
def highByte (w : Word) : Byte := w.extractLsb' 8 8

/-- Bits 7..0 of a word, the byte at the higher address (R52). -/
def lowByte (w : Word) : Byte := w.extractLsb' 0 8

/-- Why bytes are no instruction. -/
inductive DecodeError where
  /-- Fewer than two bytes: every instruction is exactly 2 bytes (R80). -/
  | truncated
  /-- The word matches no row of the opcode map (R86). -/
  | illegal (w : Word)
deriving DecidableEq, Repr

/-- The first instruction of a byte sequence and the bytes after it, or the reason there is none (R80, R52, R85). -/
def decode : List Byte → Except DecodeError (Instr × List Byte)
  | hi :: lo :: rest =>
    match decodeWord (wordOfBytes hi lo) with
    | some i => .ok (i, rest)
    | none => .error (.illegal (wordOfBytes hi lo))
  | [_] => .error .truncated
  | [] => .error .truncated

/-! ### Encoder, by the six formats (R82, R84) -/

/-- A register number as a field. -/
def regBits (x : Reg) : BitVec 4 := BitVec.ofFin x

/-- Format NNN: top, nnn. -/
def wordNNN (top : BitVec 4) (nnn : Addr) : Word := top ++ nnn

/-- Formats XNN and XFF: top, x, then eight bits of immediate or of function code. -/
def wordXNN (top : BitVec 4) (x : Reg) (nn : Byte) : Word := (top ++ regBits x) ++ nn

/-- Formats XYN and XYF: top, x, y, then four bits of row count or of function code. -/
def wordXYN (top : BitVec 4) (x y : Reg) (n : BitVec 4) : Word := (top ++ regBits x) ++ (regBits y ++ n)

/-- The word of an instruction (R84). -/
def encode : Instr → Word
  | .cls => 0x00E0
  | .ret => 0x00EE
  | .jp nnn => wordNNN 0x1 nnn
  | .call nnn => wordNNN 0x2 nnn
  | .seImm x nn => wordXNN 0x3 x nn
  | .sneImm x nn => wordXNN 0x4 x nn
  | .seReg x y => wordXYN 0x5 x y 0x0
  | .ldImm x nn => wordXNN 0x6 x nn
  | .addImm x nn => wordXNN 0x7 x nn
  | .ldReg x y => wordXYN 0x8 x y 0x0
  | .orReg x y => wordXYN 0x8 x y 0x1
  | .andReg x y => wordXYN 0x8 x y 0x2
  | .xorReg x y => wordXYN 0x8 x y 0x3
  | .addReg x y => wordXYN 0x8 x y 0x4
  | .subReg x y => wordXYN 0x8 x y 0x5
  | .shr x y => wordXYN 0x8 x y 0x6
  | .subnReg x y => wordXYN 0x8 x y 0x7
  | .shl x y => wordXYN 0x8 x y 0xE
  | .sneReg x y => wordXYN 0x9 x y 0x0
  | .ldI nnn => wordNNN 0xA nnn
  | .jpV0 nnn => wordNNN 0xB nnn
  | .rnd x nn => wordXNN 0xC x nn
  | .drw x y n => wordXYN 0xD x y (BitVec.ofNat 4 n)
  | .skp x => wordXNN 0xE x 0x9E
  | .sknp x => wordXNN 0xE x 0xA1
  | .ldVxDt x => wordXNN 0xF x 0x07
  | .ldVxK x => wordXNN 0xF x 0x0A
  | .ldDtVx x => wordXNN 0xF x 0x15
  | .ldStVx x => wordXNN 0xF x 0x18
  | .addI x => wordXNN 0xF x 0x1E
  | .ldF x => wordXNN 0xF x 0x29
  | .ldB x => wordXNN 0xF x 0x33
  | .storeRegs x => wordXNN 0xF x 0x55
  | .loadRegs x => wordXNN 0xF x 0x65

/-- An instruction's bytes as memory holds them, high byte first (R52). -/
def encodeBytes (i : Instr) : List Byte := [highByte (encode i), lowByte (encode i)]

/-! ### The opcode map as a table (R84) -/

/-- A row of the opcode map: a word w is the instruction when (w AND mask) = match (R84). -/
structure MapRow where
  pattern : String
  matchBits : Word
  mask : Word
deriving DecidableEq, Repr

/-- Rows 1 to 19 of the opcode map (R84). -/
def opcodeMapLow : List MapRow :=
  [⟨"00E0", 0x00E0, 0xFFFF⟩, ⟨"00EE", 0x00EE, 0xFFFF⟩, ⟨"1nnn", 0x1000, 0xF000⟩, ⟨"2nnn", 0x2000, 0xF000⟩,
   ⟨"3xnn", 0x3000, 0xF000⟩, ⟨"4xnn", 0x4000, 0xF000⟩, ⟨"5xy0", 0x5000, 0xF00F⟩, ⟨"6xnn", 0x6000, 0xF000⟩,
   ⟨"7xnn", 0x7000, 0xF000⟩, ⟨"8xy0", 0x8000, 0xF00F⟩, ⟨"8xy1", 0x8001, 0xF00F⟩, ⟨"8xy2", 0x8002, 0xF00F⟩,
   ⟨"8xy3", 0x8003, 0xF00F⟩, ⟨"8xy4", 0x8004, 0xF00F⟩, ⟨"8xy5", 0x8005, 0xF00F⟩, ⟨"8xy6", 0x8006, 0xF00F⟩,
   ⟨"8xy7", 0x8007, 0xF00F⟩, ⟨"8xyE", 0x800E, 0xF00F⟩, ⟨"9xy0", 0x9000, 0xF00F⟩]

/-- Rows 20 to 34 of the opcode map (R84). -/
def opcodeMapHigh : List MapRow :=
  [⟨"Annn", 0xA000, 0xF000⟩, ⟨"Bnnn", 0xB000, 0xF000⟩, ⟨"Cxnn", 0xC000, 0xF000⟩, ⟨"Dxyn", 0xD000, 0xF000⟩,
   ⟨"Ex9E", 0xE09E, 0xF0FF⟩, ⟨"ExA1", 0xE0A1, 0xF0FF⟩, ⟨"Fx07", 0xF007, 0xF0FF⟩, ⟨"Fx0A", 0xF00A, 0xF0FF⟩,
   ⟨"Fx15", 0xF015, 0xF0FF⟩, ⟨"Fx18", 0xF018, 0xF0FF⟩, ⟨"Fx1E", 0xF01E, 0xF0FF⟩, ⟨"Fx29", 0xF029, 0xF0FF⟩,
   ⟨"Fx33", 0xF033, 0xF0FF⟩, ⟨"Fx55", 0xF055, 0xF0FF⟩, ⟨"Fx65", 0xF065, 0xF0FF⟩]

/-- The 34 rows of the opcode map (R84). The decoder is written from R85 and does not read it. -/
def opcodeMap : List MapRow := opcodeMapLow ++ opcodeMapHigh

/-- w is an instruction of the row (R84). -/
def MapRow.holds (r : MapRow) (w : Word) : Bool := w &&& r.mask = r.matchBits

/-- The row's pattern of an instruction, its canonical name (R89). -/
def Instr.pattern : Instr → String
  | .cls => "00E0"
  | .ret => "00EE"
  | .jp _ => "1nnn"
  | .call _ => "2nnn"
  | .seImm _ _ => "3xnn"
  | .sneImm _ _ => "4xnn"
  | .seReg _ _ => "5xy0"
  | .ldImm _ _ => "6xnn"
  | .addImm _ _ => "7xnn"
  | .ldReg _ _ => "8xy0"
  | .orReg _ _ => "8xy1"
  | .andReg _ _ => "8xy2"
  | .xorReg _ _ => "8xy3"
  | .addReg _ _ => "8xy4"
  | .subReg _ _ => "8xy5"
  | .shr _ _ => "8xy6"
  | .subnReg _ _ => "8xy7"
  | .shl _ _ => "8xyE"
  | .sneReg _ _ => "9xy0"
  | .ldI _ => "Annn"
  | .jpV0 _ => "Bnnn"
  | .rnd _ _ => "Cxnn"
  | .drw _ _ _ => "Dxyn"
  | .skp _ => "Ex9E"
  | .sknp _ => "ExA1"
  | .ldVxDt _ => "Fx07"
  | .ldVxK _ => "Fx0A"
  | .ldDtVx _ => "Fx15"
  | .ldStVx _ => "Fx18"
  | .addI _ => "Fx1E"
  | .ldF _ => "Fx29"
  | .ldB _ => "Fx33"
  | .storeRegs _ => "Fx55"
  | .loadRegs _ => "Fx65"

/-! ### The host's reading of a table word -/

/-- The instruction the decoder reads from the bits w, of which the table counts nbits (every bit above is 0): one
word, laid out high byte first and given to the byte decoder; log 16. -/
def decodeTableWord (nbits w : Nat) : Option Instr :=
  let word := BitVec.ofNat 16 (w % 2 ^ nbits)
  match decode [highByte word, lowByte word] with
  | .ok (i, _) => some i
  | .error _ => none

end Sys2Proof
end

