-- ==== Sys2Proof/Machine/State.lean ====
section
/-! DEFINITION. The state of the core, whole (spec 10_state R20 to R43), the inputs of its step held as plain data
(00_scope R17), the reasons a step can stop, and the state after reset (10_state R40). -/

namespace Sys2Proof.Machine

/-- The seven error kinds (R250). -/
inductive ErrorKind where
  /-- LOAD with the image absent or longer than 3584 bytes. -/
  | invalidProgram
  /-- Fetch with pc ≥ 4095; Dxyn, Fx33, Fx55, Fx65 whose highest address exceeds 4095. -/
  | memoryOutOfBounds
  /-- 2nnn with sp = 16. -/
  | stackOverflow
  /-- 00EE with sp = 0. -/
  | stackUnderflow
  /-- TICK whose fetched word is illegal. -/
  | unknownOpcode
  /-- KEY with k > 15; Ex9E, ExA1 with Vx > 15. -/
  | invalidKey
  /-- Raised by nothing (R270). -/
  | registerOutOfBounds
deriving DecidableEq, Repr

/-- The run state (R37); the wait holds its destination register d (R38). -/
inductive RunState where
  | unloaded
  | running
  | awaitingKey (d : Reg)
  | faulted
deriving DecidableEq, Repr

/-- The four operations of the collaborators (R4, R221). An absent image is `none` (R225); the key index is unbounded,
so that an index above 15 can be given (R228). -/
inductive HostOp where
  | load (img : Option (List Byte))
  | tick
  | key (k : Nat) (pressed : Bool)
  | timer
deriving DecidableEq, Repr

/-- The cells that differ from the reset contents, as address and byte; see Memory.wf for its one canonical form. -/
abbrev Memory := List Host.Cell

/-- The 64 by 32 grid: 32 rows of 64 pixels, row py first, then column px (R31). -/
abbrev Framebuffer := Vector (Vector Bool 64) 32

/-- Everything the spec gives the core (R40), and three fields of the model's own: font, draws, inbox. -/
structure State where
  /-- V[0..15] (R20). -/
  v : Vector Byte 16
  /-- I, the index register (R24). -/
  i : Word
  /-- The program counter (R25). -/
  pc : Word
  /-- mem[0..4095] (R26). -/
  mem : Memory
  /-- stack[0..15] (R28). -/
  stack : Vector Word 16
  /-- The number of return addresses on the stack, 0..16 (R29). -/
  sp : Fin 17
  /-- The framebuffer (R31). -/
  fb : Framebuffer
  /-- The key flags (R32). -/
  keys : Vector Bool 16
  /-- The delay timer (R33). -/
  dt : Byte
  /-- The sound timer (R34). -/
  st : Byte
  /-- The draw flag (R36). -/
  draw : Bool
  /-- The run state (R37, R38). -/
  run : RunState
  /-- Fault cause, none for 0 (R39). -/
  fcause : Option ErrorKind
  /-- Word being executed at the fault (R39). -/
  fop : Word
  /-- Fetch address of the fault (R39). -/
  fpc : Word
  /-- FONT, a parameter that no operation changes (R8); log 2. -/
  font : Vector Byte 80
  /-- How many random bytes have been consumed: selects the next free value (R144); DESIGN CHOICE; log 3. -/
  draws : Nat
  /-- Host operations still to be served, oldest first (R62, R63); DESIGN CHOICE; log 4. -/
  inbox : List HostOp
deriving DecidableEq, Repr

/-- Why the machine stops. Every fault the spec describes is a next state (R253), so there is one reason. -/
inductive Fault where
  /-- TICK while UNLOADED: the precondition "a program has been loaded" fails and the spec gives no step (R100, R237).
  Raised by tick only; safe; log 6. -/
  | tickBeforeLoad
deriving DecidableEq, Repr

/-- Why the model answers without a meaning. -/
inductive Refusal where
  /-- An instruction that has no meaning yet, by its mnemonic. Raised by exec's arm only; safe. No arm does. -/
  | notModelled (mnemonic : String)
deriving DecidableEq, Repr

/-- What a meaning answers. -/
abbrev Result := Host.Outcome State Fault Refusal

/-- The state after reset: a successful LOAD of the empty image (R40, R224, R291; log 1). Memory lists nothing: every
cell holds its reset contents. font is the default table (PRESUMED, log 2); draws and inbox are DESIGN CHOICES (logs 3, 4). -/
def State.reset : State where
  v := Vector.replicate 16 0
  i := 0
  pc := 512
  mem := []
  stack := Vector.replicate 16 0
  sp := 0
  fb := Vector.replicate 32 (Vector.replicate 64 false)
  keys := Vector.replicate 16 false
  dt := 0
  st := 0
  draw := false
  run := .running
  fcause := none
  fop := 0
  fpc := 0
  font := Config.defaultFont
  draws := 0
  inbox := []

end Sys2Proof.Machine
end

