-- ==== Sys2Proof/Machine/Ops.lean ====
section
/-! DEFINITION. The named operations over memory, registers, stack, framebuffer and run state; raising a fault and the
way out of one, LOAD. -/

namespace Sys2Proof.Machine

/-! ### Memory (20_memory R50 to R61) -/

/-- What a cell that memory does not list reads as: its reset contents, FONT at 0..79 and 0 elsewhere (R26, R57). -/
def unlistedByte (font : Vector Byte 80) (a : Nat) : Byte :=
  if h : a < Config.fontSize then font[a] else 0

/-- The cells from address lo up, strictly rising, all below 4096, none equal to its reset contents. -/
def Memory.wfFrom (font : Vector Byte 80) (lo : Nat) : Memory → Bool
  | [] => true
  | (a, b) :: rest =>
    decide (lo ≤ a) && decide (a < Config.memSize) && decide (b ≠ unlistedByte font a) &&
      Memory.wfFrom font (a + 1) rest

/-- The canonical form: equal memories are equal lists. -/
def Memory.wf (font : Vector Byte 80) (m : Memory) : Bool := Memory.wfFrom font 0 m

/-- mem[a] (R56). -/
def Memory.read (font : Vector Byte 80) : Memory → Nat → Byte
  | [], a => unlistedByte font a
  | (c, b) :: rest, a => if c = a then b else Memory.read font rest a

/-- Put a cell at its place in the rising list; one that holds its reset contents is not listed. -/
def Memory.insert (font : Vector Byte 80) (a : Nat) (b : Byte) : Memory → Memory
  | [] => if b = unlistedByte font a then [] else [(a, b)]
  | (c, d) :: rest =>
    if c < a then (c, d) :: Memory.insert font a b rest
    else if c = a then (if b = unlistedByte font a then rest else (a, b) :: rest)
    else if b = unlistedByte font a then (c, d) :: rest
    else (a, b) :: (c, d) :: rest

/-- mem[a] <- b, for an address that exists (R13); the meanings check their range first (R60). -/
def Memory.write (font : Vector Byte 80) (m : Memory) (a : Nat) (b : Byte) : Memory :=
  if a < Config.memSize then Memory.insert font a b m else m

/-- The bytes at a, a + 1, ...: the first at the lowest address (R53). The order of the writes cannot be observed
(R167); log 13. -/
def Memory.writeBytes (font : Vector Byte 80) (m : Memory) (a : Nat) : List Byte → Memory
  | [] => m
  | b :: rest => Memory.write font (Memory.writeBytes font m (a + 1) rest) a b

/-- One byte of memory (R13, R56). -/
def State.readByte (s : State) (a : Nat) : Byte := Memory.read s.font s.mem a

/-- Consecutive bytes into memory from address a (R53). -/
def State.writeBytes (s : State) (a : Nat) (bytes : List Byte) : State :=
  { s with mem := Memory.writeBytes s.font s.mem a bytes }

/-- The word at a and a + 1, high byte first: instruction fetch only (R13, R52). -/
def State.readWord (s : State) (a : Nat) : Word := wordOfBytes (s.readByte a) (s.readByte (a + 1))

/-! ### Registers (10_state R20) -/

/-- V[r]. -/
def State.reg (s : State) (r : Reg) : Byte := s.v[r]

/-- V[r] <- b. -/
def State.setReg (s : State) (r : Reg) (b : Byte) : State := { s with v := s.v.set r b }

/-! ### Stack (40_cycle_and_control R106, R107) -/

/-- Push(v): none when the stack is full. -/
def State.push (s : State) (value : Word) : Option State :=
  if h : s.sp.val < 16 then
    some { s with stack := s.stack.set s.sp.val value, sp := ⟨s.sp.val + 1, by omega⟩ }
  else none

/-- Pop(): none when the stack is empty; the slot keeps its value. -/
def State.pop (s : State) : Option (Word × State) :=
  if h : s.sp.val = 0 then none
  else some (s.stack[s.sp.val - 1]'(by omega), { s with sp := ⟨s.sp.val - 1, by omega⟩ })

/-! ### Framebuffer (10_state R31; 43_display R183, R184) -/

/-- fb[py][px]; a place outside the grid is no pixel and reads as off. -/
def Framebuffer.pixel (fb : Framebuffer) (px py : Nat) : Bool :=
  if h : px < 64 ∧ py < 32 then (fb[py]'h.2)[px]'h.1 else false

/-- fb[py][px] <- fb[py][px] XOR 1; a place outside the grid is dropped (R183). -/
def Framebuffer.toggle (fb : Framebuffer) (px py : Nat) : Framebuffer :=
  if h : px < 64 ∧ py < 32 then fb.set py ((fb[py]'h.2).set px (!(fb[py]'h.2)[px]'h.1) h.1) h.2 else fb

/-- All pixels off. -/
def Framebuffer.blank : Framebuffer := Vector.replicate 32 (Vector.replicate 64 false)

/-- fb[py][px] of a state. -/
def State.pixel (s : State) (px py : Nat) : Bool := s.fb.pixel px py

/-! ### The instruction frame (40_cycle_and_control R102) -/

/-- Advance: pc <- pc + 2, draw <- 0. -/
def State.advance (s : State) : State := { s with pc := s.pc + 2, draw := false }

/-- Skip(): pc <- (pc + 2) mod 65536 (R15). -/
def State.skip (s : State) : State := { s with pc := s.pc + 2 }

/-! ### Raising a fault (60_exceptions R250 to R255) -/

/-- The numeric code of fcause (R250). -/
def ErrorKind.code : ErrorKind → BitVec 3
  | .invalidProgram => 1
  | .memoryOutOfBounds => 2
  | .stackOverflow => 3
  | .stackUnderflow => 4
  | .unknownOpcode => 5
  | .invalidKey => 6
  | .registerOutOfBounds => 7

/-- fcause as its three bits, 0 for no fault (R39). -/
def State.fcauseCode (s : State) : BitVec 3 :=
  match s.fcause with
  | none => 0
  | some k => k.code

/-- Latch the fault record and freeze the core; nothing else changes (R253). -/
def State.latch (s : State) (k : ErrorKind) (op addr : Word) : State :=
  { s with fcause := some k, fop := op, fpc := addr, run := .faulted }

/-- raise E(fop = op, fpc = addr): a next state, and the end of the operation in progress (R253). -/
def raise (k : ErrorKind) (op addr : Word) (s : State) : Result := .next (s.latch k op addr)

/-- A fault raised by the instruction i while it executes: fop is its word, fpc its fetch address, two below the
advanced pc (R103, R252). DEDUCED: the word is encode i and the address pc - 2; safe; log 7. -/
def raiseAt (i : Instr) (k : ErrorKind) (s : State) : Result := raise k (encode i) (s.pc - 2) s

/-! ### The way out of a fault: LOAD (45_host_operations R223 to R225; 60_exceptions R254, R256) -/

/-- LOAD, success: every element of the spec's state is set from the image and FONT alone (R224). FONT, the random
source and the operations still to be served are no state of the core and stay; log 5. -/
def State.loaded (s : State) (img : List Byte) : State :=
  { v := Vector.replicate 16 0
    i := 0
    pc := BitVec.ofNat 16 Config.progBase
    mem := Memory.writeBytes s.font [] Config.progBase img
    stack := Vector.replicate 16 0
    sp := 0
    fb := Framebuffer.blank
    keys := Vector.replicate 16 false
    dt := 0
    st := 0
    draw := false
    run := .running
    fcause := none
    fop := 0
    fpc := 0
    font := s.font
    draws := s.draws
    inbox := s.inbox }

/-- LOAD(img): succeeds for an image of at most 3584 bytes, else raises InvalidProgram (R223, R225). -/
def load (img : Option (List Byte)) (s : State) : Result :=
  match img with
  | none => raise .invalidProgram 0 0 s
  | some bytes => if bytes.length ≤ Config.progMax then .next (s.loaded bytes) else raise .invalidProgram 0 0 s

end Sys2Proof.Machine
end

