-- ==== Sys2Proof/Machine/Flags.lean ====
section
/-! DEFINITION. The flag computations (spec 10_state R41; 41_alu R131; 42_index_and_memory R161; 43_display R184) and
the order in which a flag and a result are written (40_cycle_and_control R104). -/

namespace Sys2Proof.Machine

/-- A flag as VF holds it: the byte 0x00 or 0x01 (R21). -/
def flagByte (b : Bool) : Byte := if b then 1 else 0

/-- 8xy4: the sum exceeds 255 (R138). -/
def carryOut (a b : Byte) : Bool := a.toNat + b.toNat > 255

/-- 8xy5, 8xy7: a - b needs no borrow (R139, R141). -/
def noBorrow (a b : Byte) : Bool := ¬ b.toNat > a.toNat

/-- 8xy6: the bit shifted out on the right (R140). -/
def lowBit (a : Byte) : Bool := a.getLsbD 0

/-- 8xyE: the bit shifted out on the left (R142). -/
def highBit (a : Byte) : Bool := a.getLsbD 7

/-- Fx1E: the unreduced sum is beyond 0xFFF, the last memory address (R161). -/
def indexBeyond (i : Word) (b : Byte) : Bool := i.toNat + b.toNat > 4095

/-- VF <- flag. -/
def State.setFlag (s : State) (flag : Bool) : State := s.setReg vf (flagByte flag)

/-- The flag first and the result second, so that with x = F the result stands (R104). -/
def State.setFlagThenReg (s : State) (flag : Bool) (x : Reg) (result : Byte) : State := (s.setFlag flag).setReg x result

end Sys2Proof.Machine
end

