-- ==== Sys2Proof/Machine/Operands.lean ====
section
/-! DEFINITION. The operand forms: address immediates as words, the index register with a small offset, the range check
of a block access, key numbers (spec 30_encoding R83; 20_memory R60; 42_index_and_memory R166). -/

namespace Sys2Proof.Machine

/-- nnn widened to 16 bits with zero fill (R83). -/
def addrWord (nnn : Addr) : Word := nnn.setWidth 16

/-- A byte widened to 16 bits with zero fill (R83). -/
def byteWord (b : Byte) : Word := b.setWidth 16

/-- The effective address I + k, an unbounded sum that never wraps (R60, R166). -/
def State.ea (s : State) (k : Nat) : Nat := s.i.toNat + k

/-- A block access of count cells at I stays inside 0..4095; no cell, no check (R60). -/
def State.blockInRange (s : State) (count : Nat) : Bool := count = 0 || s.ea count ≤ Config.memSize

/-- V[0..x], the registers a block move names, V0 first (R164). -/
def State.regsUpTo (s : State) (x : Reg) : List Byte := (List.range (x.val + 1)).map fun k => s.reg (Fin.ofNat 16 k)

/-- The key flag numbered by a whole byte; none above 15, where there is no key (R200). -/
def State.keyFlag (s : State) (b : Byte) : Option Bool :=
  if h : b.toNat < 16 then some s.keys[b.toNat] else none

end Sys2Proof.Machine
end

