-- ==== Sys2Proof/Machine/Alu.lean ====
section
/-! DEFINITION. Register, arithmetic and logic instructions (spec 41_alu R130 to R144). Each runs on the state after
fetch and advance; operands are the values before any write (40_cycle_and_control R104). -/

namespace Sys2Proof.Machine

/-- 6xnn (R132). -/
def execLdImm (x : Reg) (nn : Byte) (s : State) : Result := .next (s.setReg x nn)

/-- 7xnn (R133). -/
def execAddImm (x : Reg) (nn : Byte) (s : State) : Result := .next (s.setReg x (s.reg x + nn))

/-- 8xy0 (R134). -/
def execLdReg (x y : Reg) (s : State) : Result := .next (s.setReg x (s.reg y))

/-- 8xy1 (R135). -/
def execOrReg (x y : Reg) (s : State) : Result := .next (s.setReg x (s.reg x ||| s.reg y))

/-- 8xy2 (R136). -/
def execAndReg (x y : Reg) (s : State) : Result := .next (s.setReg x (s.reg x &&& s.reg y))

/-- 8xy3 (R137). -/
def execXorReg (x y : Reg) (s : State) : Result := .next (s.setReg x (s.reg x ^^^ s.reg y))

/-- 8xy4 (R138). -/
def execAddReg (x y : Reg) (s : State) : Result :=
  .next (s.setFlagThenReg (carryOut (s.reg x) (s.reg y)) x (s.reg x + s.reg y))

/-- 8xy5 (R139). -/
def execSubReg (x y : Reg) (s : State) : Result :=
  .next (s.setFlagThenReg (noBorrow (s.reg x) (s.reg y)) x (s.reg x - s.reg y))

/-- 8xy6: in place, y ignored (R140). -/
def execShr (x _y : Reg) (s : State) : Result :=
  .next (s.setFlagThenReg (lowBit (s.reg x)) x (s.reg x >>> 1))

/-- 8xy7 (R141). -/
def execSubnReg (x y : Reg) (s : State) : Result :=
  .next (s.setFlagThenReg (noBorrow (s.reg y) (s.reg x)) x (s.reg y - s.reg x))

/-- 8xyE: in place, y ignored (R142). -/
def execShl (x _y : Reg) (s : State) : Result :=
  .next (s.setFlagThenReg (highBit (s.reg x)) x (s.reg x <<< 1))

/-- Cxnn: one fresh byte of the random source, a free value, masked (R143, R144); log 3. -/
def execRnd (x : Reg) (nn : Byte) (s : State) : Result :=
  .next { s.setReg x (Config.randomByte s.draws &&& nn) with draws := s.draws + 1 }

end Sys2Proof.Machine
end

