-- ==== Sys2Proof/Machine/Control.lean ====
section
/-! DEFINITION. Control transfer (spec 40_cycle_and_control R106 to R117). On entry pc is the address of the following
instruction (R105). -/

namespace Sys2Proof.Machine

/-- Skip the next instruction if the condition holds (R111). -/
def skipIf (c : Bool) (s : State) : Result := .next (if c then s.skip else s)

/-- 00EE (R108). -/
def execRet (s : State) : Result :=
  match s.pop with
  | none => raiseAt .ret .stackUnderflow s
  | some (target, s') => .next { s' with pc := target }

/-- 1nnn (R109). -/
def execJp (nnn : Addr) (s : State) : Result := .next { s with pc := addrWord nnn }

/-- 2nnn (R110). -/
def execCall (nnn : Addr) (s : State) : Result :=
  match s.push s.pc with
  | none => raiseAt (.call nnn) .stackOverflow s
  | some s' => .next { s' with pc := addrWord nnn }

/-- 3xnn (R111). -/
def execSeImm (x : Reg) (nn : Byte) (s : State) : Result := skipIf (s.reg x = nn) s

/-- 4xnn (R112). -/
def execSneImm (x : Reg) (nn : Byte) (s : State) : Result := skipIf (s.reg x ≠ nn) s

/-- 5xy0 (R113). -/
def execSeReg (x y : Reg) (s : State) : Result := skipIf (s.reg x = s.reg y) s

/-- 9xy0 (R114). -/
def execSneReg (x y : Reg) (s : State) : Result := skipIf (s.reg x ≠ s.reg y) s

/-- Bnnn: always V0 (R115). -/
def execJpV0 (nnn : Addr) (s : State) : Result := .next { s with pc := addrWord nnn + byteWord (s.reg 0) }

end Sys2Proof.Machine
end

