-- ==== Sys2Proof/Machine/Display.lean ====
section
/-! DEFINITION. The framebuffer writer (spec 43_display R180 to R186), with the two loops of R181. -/

namespace Sys2Proof.Machine

/-- The framebuffer and the collision flag while a sprite is drawn. -/
structure Canvas where
  fb : Framebuffer
  hit : Bool
deriving DecidableEq, Repr

/-- One sprite bit of value 1 at (px, py): dropped outside the grid; a collision if the pixel was on; toggled (R183, R184). -/
def Canvas.plot (c : Canvas) (px py : Nat) : Canvas :=
  { fb := c.fb.toggle px py, hit := c.hit || c.fb.pixel px py }

/-- Bit i of a sprite row, the most significant drawn leftmost (R181). -/
def spriteBit (row : Byte) (i : Nat) : Bool := row.getLsbD (7 - i)

/-- The eight bits of one sprite row, bit i at column px + i (R181). -/
def Canvas.drawRow (c : Canvas) (row : Byte) (px py : Nat) : Canvas :=
  (List.range 8).foldl (fun c i => if spriteBit row i then c.plot (px + i) py else c) c

/-- The rows of a sprite, row j at line py + j (R181). -/
def Canvas.drawRows (c : Canvas) (px py : Nat) : List Byte → Canvas
  | [] => c
  | row :: rest => (c.drawRow row px py).drawRows px (py + 1) rest

/-- The n sprite bytes at I, I + 1, ...: every row is read, also one whose pixels are all dropped (R181, R183). -/
def State.spriteRows (s : State) (n : Nat) : List Byte := (List.range n).map fun j => s.readByte (s.ea j)

/-- 00E0 (R180). -/
def execCls (s : State) : Result := .next { s with fb := Framebuffer.blank, draw := true }

/-- Dxyn: range check, VF <- 0, the loops, VF <- collision, draw <- 1 if n > 0 (R181, R185). The origin is the value of
the registers before VF is written, not reduced (R182). -/
def execDrw (x y : Reg) (n : Nat) (s : State) : Result :=
  if s.blockInRange n then
    let c : Canvas := { fb := s.fb, hit := false }
    let c := c.drawRows (s.reg x).toNat (s.reg y).toNat (s.spriteRows n)
    .next { s.setFlag c.hit with fb := c.fb, draw := if n > 0 then true else s.draw }
  else raiseAt (.drw x y n) .memoryOutOfBounds s

end Sys2Proof.Machine
end

