-- ==== Sys2Proof/Machine/IndexMemory.lean ====
section
/-! DEFINITION. Index register and memory instructions (spec 42_index_and_memory R160 to R167). A block access checks its
whole range before it writes anything (20_memory R60). -/

namespace Sys2Proof.Machine

/-- Annn (R160). -/
def execLdI (nnn : Addr) (s : State) : Result := .next { s with i := addrWord nnn }

/-- Fx1E: the flag from the unreduced sum, then I (R161). -/
def execAddI (x : Reg) (s : State) : Result :=
  .next { s.setFlag (indexBeyond s.i (s.reg x)) with i := s.i + byteWord (s.reg x) }

/-- Fx29: the whole byte times 5 (R162). -/
def execLdF (x : Reg) (s : State) : Result :=
  .next { s with i := BitVec.ofNat 16 ((s.reg x).toNat * Config.glyphSize) }

/-- Hundreds, tens and units of a byte, each as a byte (R163). -/
def bcdDigits (b : Byte) : List Byte :=
  [BitVec.ofNat 8 (b.toNat / 100), BitVec.ofNat 8 (b.toNat / 10 % 10), BitVec.ofNat 8 (b.toNat % 10)]

/-- Fx33 (R163). -/
def execLdB (x : Reg) (s : State) : Result :=
  if s.blockInRange 3 then .next (s.writeBytes (s.ea 0) (bcdDigits (s.reg x)))
  else raiseAt (.ldB x) .memoryOutOfBounds s

/-- I <- I + x + 1, after a block move (R164, R165). -/
def State.bumpIndex (s : State) (x : Reg) : State := { s with i := s.i + BitVec.ofNat 16 (x.val + 1) }

/-- Fx55 (R164). -/
def execStoreRegs (x : Reg) (s : State) : Result :=
  if s.blockInRange (x.val + 1) then .next ((s.writeBytes (s.ea 0) (s.regsUpTo x)).bumpIndex x)
  else raiseAt (.storeRegs x) .memoryOutOfBounds s

/-- V[k] <- mem[I + k] for k = 0..x; registers above x stay (R165). -/
def State.loadRegs (s : State) (x : Reg) : State :=
  { s with v := Vector.ofFn fun k : Fin 16 => if k ≤ x then s.readByte (s.ea k.val) else s.reg k }

/-- Fx65 (R165). -/
def execLoadRegs (x : Reg) (s : State) : Result :=
  if s.blockInRange (x.val + 1) then .next ((s.loadRegs x).bumpIndex x)
  else raiseAt (.loadRegs x) .memoryOutOfBounds s

end Sys2Proof.Machine
end

