-- ==== Sys2Proof/Machine/KeysTimers.lean ====
section
/-! DEFINITION. Key and timer instructions (spec 44_keys_and_timers R200 to R206). -/

namespace Sys2Proof.Machine

/-- Ex9E: the whole byte is the key number; above 15 InvalidKey (R200). -/
def execSkp (x : Reg) (s : State) : Result :=
  match s.keyFlag (s.reg x) with
  | none => raiseAt (.skp x) .invalidKey s
  | some pressed => skipIf pressed s

/-- ExA1 (R201). -/
def execSknp (x : Reg) (s : State) : Result :=
  match s.keyFlag (s.reg x) with
  | none => raiseAt (.sknp x) .invalidKey s
  | some pressed => skipIf (!pressed) s

/-- Fx07 (R202). -/
def execLdVxDt (x : Reg) (s : State) : Result := .next (s.setReg x s.dt)

/-- Fx0A: remember x and wait; no register is written and no key flag read (R203, R206). -/
def execLdVxK (x : Reg) (s : State) : Result := .next { s with run := .awaitingKey x }

/-- Fx15 (R204). -/
def execLdDtVx (x : Reg) (s : State) : Result := .next { s with dt := s.reg x }

/-- Fx18 (R205). -/
def execLdStVx (x : Reg) (s : State) : Result := .next { s with st := s.reg x }

end Sys2Proof.Machine
end

