-- ==== Sys2Proof/Machine/HostOps.lean ====
section
/-! DEFINITION. The operations KEY and TMR of the collaborators (spec 45_host_operations R226 to R231); LOAD stands in
Ops, TICK in Cycle. -/

namespace Sys2Proof.Machine

/-- keys[k] <- pressed. -/
def State.setKey (s : State) (k : Fin 16) (pressed : Bool) : State := { s with keys := s.keys.set k pressed }

/-- KEY(k, p) with k in 0..15: the flag, and in a wait a press also writes V[d] and resumes (R226, R227). -/
def State.keyEvent (s : State) (k : Fin 16) (pressed : Bool) : State :=
  match s.run with
  | .unloaded => s
  | .faulted => s
  | .running => s.setKey k pressed
  | .awaitingKey d =>
    if pressed then { (s.setKey k pressed).setReg d (BitVec.ofNat 8 k.val) with run := .running }
    else s.setKey k pressed

/-- KEY with an index of any size: above 15 it raises InvalidKey while the core runs or waits (R228) and changes nothing
before a load or after a fault (R237, R254). DEDUCED for those two run states; safe; log 9. -/
def key (k : Nat) (pressed : Bool) (s : State) : Result :=
  if h : k < 16 then .next (s.keyEvent ⟨k, h⟩ pressed)
  else match s.run with
    | .unloaded => .next s
    | .faulted => .next s
    | .running => raise .invalidKey 0 0 s
    | .awaitingKey _ => raise .invalidKey 0 0 s

/-- One timer, floored at 0 (R229). -/
def countDown (t : Byte) : Byte := if t = 0 then 0 else t - 1

/-- TMR() (R229, R231). -/
def State.timerTick (s : State) : State :=
  match s.run with
  | .unloaded => s
  | .faulted => s
  | .running => { s with dt := countDown s.dt, st := countDown s.st }
  | .awaitingKey _ => { s with dt := countDown s.dt, st := countDown s.st }

end Sys2Proof.Machine
end

