-- ==== Sys2Proof/Machine/Cycle.lean ====
section
/-! DEFINITION. The instruction cycle TICK (spec 40_cycle_and_control R100 to R103), the serving of the host's
operations in their order (20_memory R62, R63), and the placing of a word where TICK fetches. -/

namespace Sys2Proof.Machine

/-- pc or pc + 1 falls outside 0..4095; the sum is not wrapped (R101). -/
def State.fetchOutOfRange (s : State) : Bool := s.pc.toNat > 4094

/-- The word TICK fetches (R101). -/
def State.fetchWord (s : State) : Word := s.readWord s.pc.toNat

/-- TICK in RUNNING: fetch, advance, execute; the faults in the order of R257 (R101 to R103). -/
def runCycle (s : State) : Result :=
  if s.fetchOutOfRange then raise .memoryOutOfBounds 0 s.pc s
  else
    match decodeWord s.fetchWord with
    | none => raise .unknownOpcode s.fetchWord s.pc s.advance
    | some i => exec i s.advance

/-- TICK (R100): no step before a load (log 6), no state change after a fault or in a key wait. -/
def tick (s : State) : Result :=
  match s.run with
  | .unloaded => .fault .tickBeforeLoad
  | .faulted => .next s
  | .awaitingKey _ => .next s
  | .running => runCycle s

/-- One operation of a collaborator, whole (R62). -/
def perform (op : HostOp) (s : State) : Result :=
  match op with
  | .load img => load img s
  | .tick => tick s
  | .key k pressed => key k pressed s
  | .timer => .next s.timerTick

/-- The next operation in the order of arrival; where none waits, the cycle driver's next TICK (R63, R221). DESIGN
CHOICE: the order is data in State; safe; log 4. -/
def serve (s : State) : Result :=
  match s.inbox with
  | [] => tick s
  | op :: rest => perform op { s with inbox := rest }

/-- Where withFetchWord puts its word: at pc, or at 512 where pc is beyond the last fetchable address (log 16). -/
def State.fetchSlot (s : State) : Word := if s.fetchOutOfRange then BitVec.ofNat 16 Config.progBase else s.pc

/-- A state whose next operation is TICK and which runs: as it is where it already does; else RUNNING without a latched
fault, and a TICK before any operation that waits (log 16). -/
def State.readyToFetch (s : State) : State :=
  let t := { s with inbox := if s.inbox = [] then [] else .tick :: s.inbox }
  if s.run = .running then t else { t with run := .running, fcause := none, fop := 0, fpc := 0 }

/-- The word stored where the next step fetches it, high byte first (R52; log 16). -/
def State.placeWord (s : State) (w : Word) : State :=
  { s.readyToFetch.writeBytes s.fetchSlot.toNat [highByte w, lowByte w] with pc := s.fetchSlot }

end Sys2Proof.Machine
end

