-- ==== Sys2Proof/Machine/Step.lean ====
section
/-! DEFINITION. One step: one whole operation (spec 20_memory R62). -/

namespace Sys2Proof.Machine

/-- One atomic operation (R62): the oldest that waits, or TICK. -/
def step (s : State) : Host.Outcome State Fault Refusal := serve s

/-- The instruction word w, its bits above nbits zero, stored where step fetches its next instruction (log 16). -/
def State.withFetchWord (s : State) (nbits w : Nat) : State := s.placeWord (BitVec.ofNat 16 (w % 2 ^ nbits))

end Sys2Proof.Machine
end

