-- ==== Sys2Proof/Machine/Views.lean ====
section
/-! DEFINITION. What the collaborators can read: views of the state without a way to change it (spec 45_host_operations
R222, R235). -/

namespace Sys2Proof.Machine

/-- Core to display collaborator. -/
structure DisplayView where
  fb : Framebuffer
  draw : Bool
deriving DecidableEq, Repr

/-- Core to display and audio collaborator. -/
structure TimerView where
  dt : Byte
  st : Byte
deriving DecidableEq, Repr

/-- Core to diagnostics collaborator. -/
structure DiagnosticsView where
  pc : Word
  sp : Fin 17
  i : Word
  stack : Vector Word 16
  v : Vector Byte 16
  dt : Byte
  st : Byte
deriving DecidableEq, Repr

/-- Run state with d and fault record, readable at all times (R235). -/
structure FaultView where
  run : RunState
  fcause : Option ErrorKind
  fop : Word
  fpc : Word
deriving DecidableEq, Repr

/-- Core to display collaborator (R222). -/
def displayView (s : State) : DisplayView := { fb := s.fb, draw := s.draw }

/-- Core to display and audio collaborator (R222). -/
def timerView (s : State) : TimerView := { dt := s.dt, st := s.st }

/-- Core to diagnostics collaborator (R222). -/
def diagnosticsView (s : State) : DiagnosticsView :=
  { pc := s.pc, sp := s.sp, i := s.i, stack := s.stack, v := s.v, dt := s.dt, st := s.st }

/-- Core to any (R235). -/
def faultView (s : State) : FaultView := { run := s.run, fcause := s.fcause, fop := s.fop, fpc := s.fpc }

end Sys2Proof.Machine
end

