-- ==== Sys2Proof/Safety.lean ====
section
/-! DEFINITION. The terms claims use: what an operation may change (40_cycle_and_control R105), what a raised fault
leaves (60_exceptions R253), the invariants of the state, the end of a run (70_reset_and_hazards R310), runs of several
operations. -/

namespace Sys2Proof.Machine

/-! ### Frames -/

/-- What an operation may change; everything not named here it keeps. -/
structure Writes where
  regs : List Reg := []
  cells : List Nat := []
  slots : List (Fin 16) := []
  index : Bool := false
  pc : Bool := false
  sp : Bool := false
  display : Bool := false
  drawFlag : Bool := false
  keys : Bool := false
  delay : Bool := false
  sound : Bool := false
  run : Bool := false
  record : Bool := false
  draws : Bool := false

/-- The frame: from s to t nothing changed but what w names (R105). FONT and the operations still to be served never
change. -/
structure Keeps (w : Writes) (s t : State) : Prop where
  regs : ∀ r : Reg, r ∉ w.regs → t.reg r = s.reg r
  cells : ∀ a : Nat, a ∉ w.cells → t.readByte a = s.readByte a
  slots : ∀ k : Fin 16, k ∉ w.slots → t.stack[k] = s.stack[k]
  index : w.index = false → t.i = s.i
  pc : w.pc = false → t.pc = s.pc
  sp : w.sp = false → t.sp = s.sp
  display : w.display = false → t.fb = s.fb
  drawFlag : w.drawFlag = false → t.draw = s.draw
  keys : w.keys = false → t.keys = s.keys
  delay : w.delay = false → t.dt = s.dt
  sound : w.sound = false → t.st = s.st
  run : w.run = false → t.run = s.run
  record : w.record = false → t.fcause = s.fcause ∧ t.fop = s.fop ∧ t.fpc = s.fpc
  draws : w.draws = false → t.draws = s.draws
  font : t.font = s.font
  inbox : t.inbox = s.inbox

/-- t is s with the fault k latched, and nothing else changed (R253). -/
structure Raised (k : ErrorKind) (op addr : Word) (s t : State) : Prop where
  fcause : t.fcause = some k
  fop : t.fop = op
  fpc : t.fpc = addr
  run : t.run = .faulted
  rest : Keeps { run := true, record := true } s t

/-- The word with number n is the instruction i (R84). -/
def HasWord (n : Nat) (i : Instr) : Prop := decodeWord (BitVec.ofNat 16 n) = some i

/-! ### The next operation -/

/-- The next operation is TICK, and u is the state it finds. -/
def State.ticksNext (s u : State) : Prop :=
  (s.inbox = [] ∧ u = s) ∨ ∃ rest, s.inbox = .tick :: rest ∧ u = { s with inbox := rest }

/-- Instructions executed one after another, without fetches between them. -/
def execAll : List Instr → State → Result
  | [], s => .next s
  | i :: rest, s =>
    match exec i s with
    | .next t => execAll rest t
    | .fault r => .fault r
    | .refused r => .refused r

/-- Operations served one after another, each whole (R62). -/
def performAll : List HostOp → State → Result
  | [], s => .next s
  | op :: rest, s =>
    match perform op s with
    | .next t => performAll rest t
    | .fault r => .fault r
    | .refused r => .refused r

/-! ### Invariants -/

/-- Memory is in its one canonical form, inside 0..4095. -/
def State.memCanonical (s : State) : Prop := Memory.wf s.font s.mem = true

/-- A cause is recorded exactly in FAULTED (R39), and it is never RegisterOutOfBounds (R270). -/
def State.recordCoherent (s : State) : Prop :=
  (s.fcause ≠ none ↔ s.run = .faulted) ∧ s.fcause ≠ some .registerOutOfBounds

/-- The core runs or waits for a key. -/
def State.live (s : State) : Prop := s.run = .running ∨ ∃ d, s.run = .awaitingKey d

/-- While the core runs or waits, pc is at most 4350 and every live stack entry is in 2..4096 (R116). -/
def State.pcBounded (s : State) : Prop :=
  s.live → s.pc.toNat ≤ 4350 ∧ ∀ k : Fin 16, k.val < s.sp.val → 2 ≤ s.stack[k].toNat ∧ s.stack[k].toNat ≤ 4096

/-! ### Power-on and the end of a run -/

/-- Power-on, before any LOAD: everything but the run state and the fault cause is any value (R290); log 11. -/
def State.atPowerOn (s : State) : Prop := s.run = .unloaded ∧ s.fcause = none

/-- A run has ended normally: RUNNING at a jump to its own address (R310). -/
def State.endedNormally (s : State) : Prop :=
  s.run = .running ∧ s.pc.toNat ≤ 4094 ∧
    (s.readByte s.pc.toNat).toNat * 256 + (s.readByte (s.pc.toNat + 1)).toNat = 0x1000 + s.pc.toNat

/-- A run has ended by fault: never a success (R310). -/
def State.endedByFault (s : State) : Prop := s.run = .faulted

/-! ### The sprite of Dxyn, as a set of grid places -/

/-- The sprite of n rows at (Vx, Vy) has a bit of value 1 at column px, row py (R181, R182). -/
def State.spriteCovers (s : State) (x y : Reg) (n px py : Nat) : Bool :=
  decide ((s.reg x).toNat ≤ px) && decide (px < (s.reg x).toNat + 8) &&
  decide ((s.reg y).toNat ≤ py) && decide (py < (s.reg y).toNat + n) &&
  (s.readByte (s.ea (py - (s.reg y).toNat))).getLsbD (7 - (px - (s.reg x).toNat))

end Sys2Proof.Machine
end

