-- ==== Sys2Proof/Certificates/Slice0/Obligations.lean ====
section
/-! DEFINITION. The statements for the provers, from the spec's numbered rules. An instruction's meaning runs on the state
after fetch and advance: s.pc is then the address of the following instruction (40_cycle_and_control R105). Where a clause
reads back what was stored, it assumes the canonical form of memory, the model's own form (log 10, DESIGN CHOICE), which
every step keeps (MemoryStaysCanonical). -/

open Sys2Proof Sys2Proof.Machine

/-! ### Encoding (30_encoding) -/

/-- Every instruction an encoding can express, laid out as memory holds it, decodes to itself, and the bytes after it are
left over (R80, R82, R84, R85). -/
def Obligations.EncodedInstructionsDecodeBack : Prop :=
  ∀ (i : Instr) (rest : List Byte), i.wellFormed = true → decode (encodeBytes i ++ rest) = .ok (i, rest)

/-- A word that decodes is the encoding of what it decodes to: no bit of it is dropped (R81, R84). -/
def Obligations.DecodedWordsEncodeBack : Prop :=
  ∀ (w : Word) (i : Instr), decodeWord w = some i → i.wellFormed = true ∧ encode i = w

/-- The decoder of R85 and the opcode map of R84 agree: a word is illegal exactly when it is an instruction of no row, the
instruction read is that of the row the word belongs to, and no word belongs to two rows. -/
def Obligations.DecoderFollowsOpcodeMap : Prop :=
  (∀ w : Word, decodeWord w = none ↔ ∀ r ∈ opcodeMap, r.holds w = false) ∧
  (∀ (w : Word) (i : Instr), decodeWord w = some i → ∃ r ∈ opcodeMap, r.holds w = true ∧ r.pattern = i.pattern) ∧
  (∀ (w : Word) (r q : MapRow), r ∈ opcodeMap → q ∈ opcodeMap → r.holds w = true → q.holds w = true → r = q)

/-- Words written out from the patterns of R84, one or more per family. -/
def Obligations.SpecWordsDecode : Prop :=
  decodeWord 0x00E0 = some .cls ∧ decodeWord 0x00EE = some .ret ∧ decodeWord 0x1204 = some (.jp 0x204) ∧
  decodeWord 0x3100 = some (.seImm 1 0x00) ∧ decodeWord 0x8014 = some (.addReg 0 1) ∧
  decodeWord 0x80A6 = some (.shr 0 10) ∧ decodeWord 0xC30F = some (.rnd 3 0x0F) ∧
  decodeWord 0xD015 = some (.drw 0 1 5) ∧ decodeWord 0xE4A1 = some (.sknp 4) ∧ decodeWord 0xF265 = some (.loadRegs 2) ∧
  decodeWord 0x0000 = none ∧ decodeWord 0x5341 = none ∧ decodeWord 0xFFFF = none

/-! ### The cycle (40_cycle_and_control R100 to R103; 60_exceptions R252, R255) -/

/-- TICK by run state (R100): no step before a load (the stop is the model's form of it, log 6), nothing after a fault or
in a key wait, one cycle in RUNNING. -/
def Obligations.TickByRunState : Prop :=
  ∀ s : State,
    (s.run = .unloaded → tick s = .fault .tickBeforeLoad) ∧
    (s.run = .faulted → tick s = .next s) ∧
    (∀ d, s.run = .awaitingKey d → tick s = .next s) ∧
    (s.run = .running → tick s = runCycle s)

/-- A step runs the decoded instruction: in RUNNING, with the two bytes at pc and pc + 1 in memory decoding to i, it is
exec of i on the state with pc advanced by 2 and the draw flag cleared (R101, R102, R103). -/
def Obligations.StepRunsDecodedInstruction : Prop :=
  ∀ (s u : State) (i : Instr), s.ticksNext u → s.run = .running → s.pc.toNat ≤ 4094 →
    decodeWord (wordOfBytes (s.readByte s.pc.toNat) (s.readByte (s.pc.toNat + 1))) = some i →
    step s = exec i { u with pc := u.pc + 2, draw := false }

/-- Fetch (R101): beyond 4094 it raises MemoryOutOfBounds with fop = 0 and fpc = pc and changes nothing else, else the
word is mem[pc] * 256 + mem[pc + 1]. -/
def Obligations.FetchChecksRangeAndReadsBigEndian : Prop :=
  ∀ s u : State, s.ticksNext u → s.run = .running →
    (4094 < s.pc.toNat → ∃ t, step s = .next t ∧ Raised .memoryOutOfBounds 0 s.pc u t) ∧
    (s.pc.toNat ≤ 4094 →
      s.fetchWord.toNat = (s.readByte s.pc.toNat).toNat * 256 + (s.readByte (s.pc.toNat + 1)).toNat)

/-- An illegal word (R86, R88): UnknownOpcode with the word and its fetch address; the pc advance and the draw-flag clear
of that TICK have happened, and nothing else. -/
def Obligations.IllegalWordRaisesUnknownOpcode : Prop :=
  ∀ s u : State, s.ticksNext u → s.run = .running → s.pc.toNat ≤ 4094 → decodeWord s.fetchWord = none →
    ∃ t, step s = .next t ∧ Raised .unknownOpcode s.fetchWord s.pc { u with pc := u.pc + 2, draw := false } t

/-- Every TICK fault is precise (R255, R252): fpc is the fetch address; after a fetch fault pc and draw are as before and
fop is 0, else pc is fpc + 2, draw is 0 and fop is the word fetched; nothing else changed but the record and run. -/
def Obligations.TickFaultsArePrecise : Prop :=
  ∀ s u t : State, s.ticksNext u → s.run = .running → step s = .next t → t.run = .faulted →
    t.fcause ≠ none ∧ t.fpc = s.pc ∧
    (4094 < s.pc.toNat → t.pc = s.pc ∧ t.draw = s.draw ∧ t.fop = 0) ∧
    (s.pc.toNat ≤ 4094 → t.pc.toNat = s.pc.toNat + 2 ∧ t.draw = false ∧ t.fop = s.fetchWord) ∧
    Keeps { pc := true, drawFlag := true, run := true, record := true } u t

/-- Which instruction can raise what, complete (R251): a meaning that faults a running core is one of these; Dxyn with
n = 0 raises nothing. (R251 is marked by the spec as its inference.) -/
def Obligations.OnlyListedInstructionsFault : Prop :=
  ∀ (i : Instr) (s t : State), s.run = .running → exec i s = .next t → t.run = .faulted →
    (i.pattern = "00EE" ∧ t.fcause = some .stackUnderflow) ∨
    (i.pattern = "2nnn" ∧ t.fcause = some .stackOverflow) ∨
    (i.pattern ∈ ["Dxyn", "Fx33", "Fx55", "Fx65"] ∧ (∀ x y, i ≠ .drw x y 0) ∧ t.fcause = some .memoryOutOfBounds) ∨
    (i.pattern ∈ ["Ex9E", "ExA1"] ∧ t.fcause = some .invalidKey)

/-- Every step answers a next state, but for TICK before a load, which stops by name (R100, R237; log 6); no step is
refused. -/
def Obligations.OnlyTickBeforeLoadStops : Prop :=
  ∀ s : State, (∃ t, step s = .next t) ∨
    (s.run = .unloaded ∧ (∃ u, s.ticksNext u) ∧ step s = .fault .tickBeforeLoad)

/-- raise E does exactly this (R253): the record is latched, run becomes FAULTED, nothing else changes; the cause reads as
its code, 1 to 7 in the order of R250. -/
def Obligations.RaiseLatchesRecord : Prop :=
  ∀ (k : ErrorKind) (op addr : Word) (s : State), ∃ t, raise k op addr s = .next t ∧ Raised k op addr s t ∧
    1 ≤ t.fcauseCode.toNat ∧
    [.invalidProgram, .memoryOutOfBounds, .stackOverflow, .stackUnderflow, .unknownOpcode, .invalidKey,
      ErrorKind.registerOutOfBounds][t.fcauseCode.toNat - 1]? = some k

/-! ### Control transfer (40_cycle_and_control) -/

/-- 1nnn (R109). -/
def Obligations.JumpSetsPc : Prop :=
  ∀ (s : State) (nnn : Addr), HasWord (0x1000 + nnn.toNat) (.jp nnn) ∧
    ∃ t, exec (.jp nnn) s = .next t ∧ t.pc.toNat = nnn.toNat ∧ Keeps { pc := true } s t

/-- Bnnn (R115): always V0, and the sum is not reduced mod 4096. -/
def Obligations.JumpWithOffsetAddsV0 : Prop :=
  ∀ (s : State) (nnn : Addr), HasWord (0xB000 + nnn.toNat) (.jpV0 nnn) ∧
    ∃ t, exec (.jpV0 nnn) s = .next t ∧ t.pc.toNat = (nnn.toNat + (s.reg 0).toNat) % 65536 ∧ Keeps { pc := true } s t

/-- 3xnn, 4xnn, 5xy0, 9xy0 (R111 to R114): 2 more on pc when the condition holds, and nothing else; 5xyn and 9xyn with
n above 0 are illegal. -/
def Obligations.SkipsAddTwoWhenConditionHolds : Prop :=
  ∀ (s : State) (x y : Reg) (nn : Byte),
    (HasWord (0x3000 + 256 * x.val + nn.toNat) (.seImm x nn) ∧ ∃ t, exec (.seImm x nn) s = .next t ∧
      t.pc.toNat = (if s.reg x = nn then (s.pc.toNat + 2) % 65536 else s.pc.toNat) ∧ Keeps { pc := true } s t) ∧
    (HasWord (0x4000 + 256 * x.val + nn.toNat) (.sneImm x nn) ∧ ∃ t, exec (.sneImm x nn) s = .next t ∧
      t.pc.toNat = (if s.reg x = nn then s.pc.toNat else (s.pc.toNat + 2) % 65536) ∧ Keeps { pc := true } s t) ∧
    (HasWord (0x5000 + 256 * x.val + 16 * y.val) (.seReg x y) ∧ ∃ t, exec (.seReg x y) s = .next t ∧
      t.pc.toNat = (if s.reg x = s.reg y then (s.pc.toNat + 2) % 65536 else s.pc.toNat) ∧ Keeps { pc := true } s t) ∧
    (HasWord (0x9000 + 256 * x.val + 16 * y.val) (.sneReg x y) ∧ ∃ t, exec (.sneReg x y) s = .next t ∧
      t.pc.toNat = (if s.reg x = s.reg y then s.pc.toNat else (s.pc.toNat + 2) % 65536) ∧ Keeps { pc := true } s t) ∧
    (∀ n : Nat, 0 < n → n < 16 → decodeWord (BitVec.ofNat 16 (0x5000 + 256 * x.val + 16 * y.val + n)) = none ∧
      decodeWord (BitVec.ofNat 16 (0x9000 + 256 * x.val + 16 * y.val + n)) = none)

/-- 2nnn (R110, R106): pushes the advanced pc and jumps; with sp = 16 StackOverflow, and no slot, sp or pc is written. -/
def Obligations.CallPushesAdvancedPc : Prop :=
  ∀ (s : State) (nnn : Addr), HasWord (0x2000 + nnn.toNat) (.call nnn) ∧
    (∀ h : s.sp.val < 16, ∃ t, exec (.call nnn) s = .next t ∧ t.stack[s.sp.val] = s.pc ∧ t.sp.val = s.sp.val + 1 ∧
      t.pc.toNat = nnn.toNat ∧ Keeps { pc := true, sp := true, slots := [⟨s.sp.val, h⟩] } s t) ∧
    (s.sp.val = 16 → ∃ t, exec (.call nnn) s = .next t ∧
      Raised .stackOverflow (BitVec.ofNat 16 (0x2000 + nnn.toNat)) (s.pc - 2) s t)

/-- 00EE (R108, R107): pops the return address into pc, the slot keeping its value; with sp = 0 StackUnderflow, and
neither sp nor pc is written. -/
def Obligations.ReturnPopsIntoPc : Prop :=
  ∀ s : State, HasWord 0x00EE .ret ∧
    (∀ h : 0 < s.sp.val, ∃ t, exec .ret s = .next t ∧
      t.pc = s.stack[s.sp.val - 1]'(by omega) ∧ t.sp.val = s.sp.val - 1 ∧ Keeps { pc := true, sp := true } s t) ∧
    (s.sp.val = 0 → ∃ t, exec .ret s = .next t ∧ Raised .stackUnderflow 0x00EE (s.pc - 2) s t)

/-- A call and, in any later state with the same stack, a return: control comes back to the instruction after the call,
and sp is what it was (R108, R110). -/
def Obligations.ReturnUndoesCall : Prop :=
  ∀ (s : State) (nnn : Addr), s.sp.val < 16 → ∃ t, exec (.call nnn) s = .next t ∧
    ∀ m : State, m.sp = t.sp → m.stack = t.stack → ∃ u, exec .ret m = .next u ∧ u.pc = s.pc ∧ u.sp = s.sp

/-- Nested calls (R110): as many as there are free slots succeed, and one more raises StackOverflow. -/
def Obligations.SixteenNestedCallsThenOverflow : Prop :=
  ∀ (targets : List Addr) (last : Addr) (s : State), s.run = .running → s.sp.val + targets.length = 16 →
    ∃ t, execAll (targets.map .call) s = .next t ∧ t.run = .running ∧ t.sp.val = 16 ∧
      ∃ u, exec (.call last) t = .next u ∧ u.fcause = some .stackOverflow ∧ u.run = .faulted ∧ u.sp = t.sp

/-! ### Registers and arithmetic (41_alu) -/

/-- 6xnn, 7xnn, 8xy0, 8xy1, 8xy2, 8xy3 (R132 to R137): the result in Vx, and no other register, VF included. -/
def Obligations.PlainRegisterInstructions : Prop :=
  ∀ (s : State) (x y : Reg) (nn : Byte),
    (HasWord (0x6000 + 256 * x.val + nn.toNat) (.ldImm x nn) ∧ ∃ t, exec (.ldImm x nn) s = .next t ∧
      t.reg x = nn ∧ Keeps { regs := [x] } s t) ∧
    (HasWord (0x7000 + 256 * x.val + nn.toNat) (.addImm x nn) ∧ ∃ t, exec (.addImm x nn) s = .next t ∧
      (t.reg x).toNat = ((s.reg x).toNat + nn.toNat) % 256 ∧ Keeps { regs := [x] } s t) ∧
    (HasWord (0x8000 + 256 * x.val + 16 * y.val) (.ldReg x y) ∧ ∃ t, exec (.ldReg x y) s = .next t ∧
      t.reg x = s.reg y ∧ Keeps { regs := [x] } s t) ∧
    (HasWord (0x8001 + 256 * x.val + 16 * y.val) (.orReg x y) ∧ ∃ t, exec (.orReg x y) s = .next t ∧
      (∀ k < 8, (t.reg x).getLsbD k = ((s.reg x).getLsbD k || (s.reg y).getLsbD k)) ∧ Keeps { regs := [x] } s t) ∧
    (HasWord (0x8002 + 256 * x.val + 16 * y.val) (.andReg x y) ∧ ∃ t, exec (.andReg x y) s = .next t ∧
      (∀ k < 8, (t.reg x).getLsbD k = ((s.reg x).getLsbD k && (s.reg y).getLsbD k)) ∧ Keeps { regs := [x] } s t) ∧
    (HasWord (0x8003 + 256 * x.val + 16 * y.val) (.xorReg x y) ∧ ∃ t, exec (.xorReg x y) s = .next t ∧
      (∀ k < 8, (t.reg x).getLsbD k = ((s.reg x).getLsbD k ^^ (s.reg y).getLsbD k)) ∧ Keeps { regs := [x] } s t)

/-- 8xy4 (R138): the sum mod 256 in Vx; the carry in VF unless x = F. -/
def Obligations.AddSetsCarry : Prop :=
  ∀ (s : State) (x y : Reg), HasWord (0x8004 + 256 * x.val + 16 * y.val) (.addReg x y) ∧
    ∃ t, exec (.addReg x y) s = .next t ∧
      (t.reg x).toNat = ((s.reg x).toNat + (s.reg y).toNat) % 256 ∧
      (x ≠ vf → (t.reg vf).toNat = if (s.reg x).toNat + (s.reg y).toNat > 255 then 1 else 0) ∧
      Keeps { regs := [x, vf] } s t

/-- 8xy5 and 8xy7 (R139, R141): the difference mod 256 in Vx; VF is 0 on a borrow, else 1, unless x = F. -/
def Obligations.SubtractionsClearFlagOnBorrow : Prop :=
  ∀ (s : State) (x y : Reg),
    (HasWord (0x8005 + 256 * x.val + 16 * y.val) (.subReg x y) ∧ ∃ t, exec (.subReg x y) s = .next t ∧
      ((t.reg x).toNat : Int) = (((s.reg x).toNat : Int) - (s.reg y).toNat) % 256 ∧
      (x ≠ vf → (t.reg vf).toNat = if (s.reg y).toNat > (s.reg x).toNat then 0 else 1) ∧
      Keeps { regs := [x, vf] } s t) ∧
    (HasWord (0x8007 + 256 * x.val + 16 * y.val) (.subnReg x y) ∧ ∃ t, exec (.subnReg x y) s = .next t ∧
      ((t.reg x).toNat : Int) = (((s.reg y).toNat : Int) - (s.reg x).toNat) % 256 ∧
      (x ≠ vf → (t.reg vf).toNat = if (s.reg x).toNat > (s.reg y).toNat then 0 else 1) ∧
      Keeps { regs := [x, vf] } s t)

/-- 8xy6 and 8xyE (R140, R142): shifted by one in place, whatever y is; the bit shifted out in VF unless x = F. -/
def Obligations.ShiftsMoveOneBitInPlace : Prop :=
  ∀ (s : State) (x y : Reg),
    (HasWord (0x8006 + 256 * x.val + 16 * y.val) (.shr x y) ∧ ∃ t, exec (.shr x y) s = .next t ∧
      (t.reg x).toNat = (s.reg x).toNat / 2 ∧
      (x ≠ vf → (t.reg vf).toNat = (s.reg x).toNat % 2) ∧ Keeps { regs := [x, vf] } s t) ∧
    (HasWord (0x800E + 256 * x.val + 16 * y.val) (.shl x y) ∧ ∃ t, exec (.shl x y) s = .next t ∧
      (t.reg x).toNat = (s.reg x).toNat * 2 % 256 ∧
      (x ≠ vf → (t.reg vf).toNat = (s.reg x).toNat / 128) ∧ Keeps { regs := [x, vf] } s t)

/-- Cxnn (R143): Vx is one byte of the random source AND nn, whatever byte that is; one byte is consumed. The byte is the
model's free value Config.randomByte at the count draws (log 3): nothing is known of it. -/
def Obligations.RandomByteIsMasked : Prop :=
  ∀ (s : State) (x : Reg) (nn : Byte), HasWord (0xC000 + 256 * x.val + nn.toNat) (.rnd x nn) ∧
    ∃ t, exec (.rnd x nn) s = .next t ∧
      (∀ k < 8, (t.reg x).getLsbD k = ((Config.randomByte s.draws).getLsbD k && nn.getLsbD k)) ∧
      (nn = 0 → t.reg x = 0) ∧ t.draws = s.draws + 1 ∧ Keeps { regs := [x], draws := true } s t

/-! ### Index and memory (42_index_and_memory; 20_memory) -/

/-- Annn and Fx29 (R160, R162). -/
def Obligations.IndexLoads : Prop :=
  ∀ (s : State) (x : Reg) (nnn : Addr),
    (HasWord (0xA000 + nnn.toNat) (.ldI nnn) ∧ ∃ t, exec (.ldI nnn) s = .next t ∧
      t.i.toNat = nnn.toNat ∧ Keeps { index := true } s t) ∧
    (HasWord (0xF029 + 256 * x.val) (.ldF x) ∧ ∃ t, exec (.ldF x) s = .next t ∧
      t.i.toNat = (s.reg x).toNat * 5 ∧ Keeps { index := true } s t)

/-- Fx1E (R161): I mod 65536; VF from the unreduced sum, also when x = F, where the addend is the old VF. -/
def Obligations.AddToIndexFlagsRange : Prop :=
  ∀ (s : State) (x : Reg), HasWord (0xF01E + 256 * x.val) (.addI x) ∧
    ∃ t, exec (.addI x) s = .next t ∧
      t.i.toNat = (s.i.toNat + (s.reg x).toNat) % 65536 ∧
      (t.reg vf).toNat = (if s.i.toNat + (s.reg x).toNat > 4095 then 1 else 0) ∧
      Keeps { index := true, regs := [vf] } s t

/-- Fx33 (R163): hundreds, tens and units at I, I + 1, I + 2 and nowhere else; I stays; beyond 4095 MemoryOutOfBounds
and no cell is written. -/
def Obligations.BcdStoresThreeDigits : Prop :=
  ∀ (s : State) (x : Reg), HasWord (0xF033 + 256 * x.val) (.ldB x) ∧
    (s.memCanonical → s.ea 2 ≤ 4095 → ∃ t, exec (.ldB x) s = .next t ∧
      (t.readByte (s.ea 0)).toNat = (s.reg x).toNat / 100 ∧
      (t.readByte (s.ea 1)).toNat = (s.reg x).toNat / 10 % 10 ∧
      (t.readByte (s.ea 2)).toNat = (s.reg x).toNat % 10 ∧
      Keeps { cells := [s.ea 0, s.ea 1, s.ea 2] } s t) ∧
    (4095 < s.ea 2 → ∃ t, exec (.ldB x) s = .next t ∧
      Raised .memoryOutOfBounds (BitVec.ofNat 16 (0xF033 + 256 * x.val)) (s.pc - 2) s t)

/-- Fx55 (R164): V[k] at I + k for k = 0..x and nowhere else, then I + x + 1; beyond 4095 MemoryOutOfBounds and nothing
is written. -/
def Obligations.StoreRegistersAtIndex : Prop :=
  ∀ (s : State) (x : Reg), HasWord (0xF055 + 256 * x.val) (.storeRegs x) ∧
    (s.memCanonical → s.ea x.val ≤ 4095 → ∃ t, exec (.storeRegs x) s = .next t ∧
      (∀ k : Reg, k ≤ x → t.readByte (s.ea k.val) = s.reg k) ∧
      t.i.toNat = s.i.toNat + x.val + 1 ∧
      Keeps { index := true, cells := (List.range (x.val + 1)).map s.ea } s t) ∧
    (4095 < s.ea x.val → ∃ t, exec (.storeRegs x) s = .next t ∧
      Raised .memoryOutOfBounds (BitVec.ofNat 16 (0xF055 + 256 * x.val)) (s.pc - 2) s t)

/-- Fx65 (R165): V[k] from I + k for k = 0..x, registers above x as before, then I + x + 1; beyond 4095 MemoryOutOfBounds
and nothing is written. -/
def Obligations.LoadRegistersFromIndex : Prop :=
  ∀ (s : State) (x : Reg), HasWord (0xF065 + 256 * x.val) (.loadRegs x) ∧
    (s.ea x.val ≤ 4095 → ∃ t, exec (.loadRegs x) s = .next t ∧
      (∀ k : Reg, t.reg k = if k ≤ x then s.readByte (s.ea k.val) else s.reg k) ∧
      t.i.toNat = s.i.toNat + x.val + 1 ∧
      Keeps { index := true, regs := (List.finRange 16).filter (· ≤ x) } s t) ∧
    (4095 < s.ea x.val → ∃ t, exec (.loadRegs x) s = .next t ∧
      Raised .memoryOutOfBounds (BitVec.ofNat 16 (0xF065 + 256 * x.val)) (s.pc - 2) s t)

/-- Fx55 and then, with I put back and memory untouched, Fx65 gives back the registers stored, whatever the registers
held in between (R164, R165, R56). -/
def Obligations.LoadRegistersUndoesStore : Prop :=
  ∀ (s : State) (x : Reg), s.memCanonical → s.ea x.val ≤ 4095 → ∃ t, exec (.storeRegs x) s = .next t ∧
    ∀ m : State, m.i = s.i → (∀ a, m.readByte a = t.readByte a) →
      ∃ u, exec (.loadRegs x) m = .next u ∧ ∀ k : Reg, k ≤ x → u.reg k = s.reg k

/-- A store is seen by every later fetch (R66, marked by the spec as its inference): the word fetched at I + k after Fx55
is V[k] and V[k + 1]. -/
def Obligations.StoreIsSeenByNextFetch : Prop :=
  ∀ (s : State) (x k l : Reg), s.memCanonical → s.ea x.val ≤ 4095 → l ≤ x → l.val = k.val + 1 →
    ∃ t, exec (.storeRegs x) s = .next t ∧
      ∀ m : State, m.pc.toNat = s.ea k.val → (∀ a, m.readByte a = t.readByte a) →
        m.fetchWord = wordOfBytes (s.reg k) (s.reg l)

/-! ### Display (43_display) -/

/-- 00E0 (R180). -/
def Obligations.ClearScreenTurnsAllOff : Prop :=
  ∀ s : State, HasWord 0x00E0 .cls ∧ ∃ t, exec .cls s = .next t ∧
    (∀ px py, t.pixel px py = false) ∧ t.draw = true ∧ Keeps { display := true, drawFlag := true } s t

/-- Dxyn (R181 to R185): the two loops, told as one picture. Each pixel of the grid is toggled exactly where the sprite
has a bit of value 1; targets outside the grid are dropped; VF is 1 exactly when such a bit fell on a pixel that was on;
draw is set when n > 0; beyond 4095 MemoryOutOfBounds and nothing is written. -/
def Obligations.DrawTogglesExactlyTheSprite : Prop :=
  ∀ (s : State) (x y : Reg) (n : Nat), n ≤ 15 →
    HasWord (0xD000 + 256 * x.val + 16 * y.val + n) (.drw x y n) ∧
    ((n = 0 ∨ s.ea (n - 1) ≤ 4095) → ∃ t, exec (.drw x y n) s = .next t ∧
      (∀ px py, px < 64 → py < 32 → t.pixel px py = (s.pixel px py ^^ s.spriteCovers x y n px py)) ∧
      (t.reg vf = 1 ∨ t.reg vf = 0) ∧
      (t.reg vf = 1 ↔ ∃ px py, px < 64 ∧ py < 32 ∧ s.spriteCovers x y n px py = true ∧ s.pixel px py = true) ∧
      t.draw = (if n > 0 then true else s.draw) ∧
      Keeps { display := true, drawFlag := true, regs := [vf] } s t) ∧
    (0 < n → 4095 < s.ea (n - 1) → ∃ t, exec (.drw x y n) s = .next t ∧
      Raised .memoryOutOfBounds (BitVec.ofNat 16 (0xD000 + 256 * x.val + 16 * y.val + n)) (s.pc - 2) s t)

/-- Drawing the same sprite at the same place again gives back the framebuffer; the second VF is 1 exactly when the sprite
has a bit of value 1 on a pixel of the grid that was off before the first draw (R181, R184). -/
def Obligations.DrawingTwiceRestoresPixels : Prop :=
  ∀ (s : State) (x y : Reg) (n : Nat), (n = 0 ∨ s.ea (n - 1) ≤ 4095) → ∃ t, exec (.drw x y n) s = .next t ∧
    ∀ m : State, m.fb = t.fb → m.i = s.i → m.reg x = s.reg x → m.reg y = s.reg y →
      (∀ a, m.readByte a = s.readByte a) → ∃ u, exec (.drw x y n) m = .next u ∧ u.fb = s.fb ∧
        (u.reg vf = 1 ↔ ∃ px py, px < 64 ∧ py < 32 ∧ s.spriteCovers x y n px py = true ∧ s.pixel px py = false)

/-- A sprite whose origin lies outside the grid is dropped whole, never wrapped; VF is still cleared (R182, R183). -/
def Obligations.OriginOutsideGridDropsSprite : Prop :=
  ∀ (s : State) (x y : Reg) (n : Nat), (n = 0 ∨ s.ea (n - 1) ≤ 4095) →
    (64 ≤ (s.reg x).toNat ∨ 32 ≤ (s.reg y).toNat) →
    ∃ t, exec (.drw x y n) s = .next t ∧ t.fb = s.fb ∧ t.reg vf = 0

/-! ### Keys and timers (44_keys_and_timers) -/

/-- Ex9E and ExA1 (R200, R201): the whole byte Vx is the key number; above 15 InvalidKey, which R200 marks as the spec's
own choice. -/
def Obligations.KeySkipsReadWholeByte : Prop :=
  ∀ (s : State) (x : Reg),
    HasWord (0xE09E + 256 * x.val) (.skp x) ∧ HasWord (0xE0A1 + 256 * x.val) (.sknp x) ∧
    (∀ h : (s.reg x).toNat < 16,
      (∃ t, exec (.skp x) s = .next t ∧
        t.pc.toNat = (if s.keys[(s.reg x).toNat] then (s.pc.toNat + 2) % 65536 else s.pc.toNat) ∧
        Keeps { pc := true } s t) ∧
      (∃ t, exec (.sknp x) s = .next t ∧
        t.pc.toNat = (if s.keys[(s.reg x).toNat] then s.pc.toNat else (s.pc.toNat + 2) % 65536) ∧
        Keeps { pc := true } s t)) ∧
    (15 < (s.reg x).toNat →
      (∃ t, exec (.skp x) s = .next t ∧
        Raised .invalidKey (BitVec.ofNat 16 (0xE09E + 256 * x.val)) (s.pc - 2) s t) ∧
      (∃ t, exec (.sknp x) s = .next t ∧
        Raised .invalidKey (BitVec.ofNat 16 (0xE0A1 + 256 * x.val)) (s.pc - 2) s t))

/-- Fx07, Fx15, Fx18 (R202, R204, R205). -/
def Obligations.TimerInstructionsMoveBytes : Prop :=
  ∀ (s : State) (x : Reg),
    (HasWord (0xF007 + 256 * x.val) (.ldVxDt x) ∧ ∃ t, exec (.ldVxDt x) s = .next t ∧
      t.reg x = s.dt ∧ Keeps { regs := [x] } s t) ∧
    (HasWord (0xF015 + 256 * x.val) (.ldDtVx x) ∧ ∃ t, exec (.ldDtVx x) s = .next t ∧
      t.dt = s.reg x ∧ Keeps { delay := true } s t) ∧
    (HasWord (0xF018 + 256 * x.val) (.ldStVx x) ∧ ∃ t, exec (.ldStVx x) s = .next t ∧
      t.st = s.reg x ∧ Keeps { sound := true } s t)

/-- Fx0A (R203): only the run state changes; it remembers x. -/
def Obligations.KeyWaitRemembersRegister : Prop :=
  ∀ (s : State) (x : Reg), HasWord (0xF00A + 256 * x.val) (.ldVxK x) ∧
    ∃ t, exec (.ldVxK x) s = .next t ∧ t.run = .awaitingKey x ∧ Keeps { run := true } s t

/-- Only a press event, a LOAD or a KEY with an index above 15 ends a key wait (R206, R37). -/
def Obligations.OnlyPressOrLoadEndsKeyWait : Prop :=
  ∀ (s t : State) (d : Reg) (op : HostOp), s.run = .awaitingKey d → perform op s = .next t → t.run ≠ .awaitingKey d →
    (∃ k : Fin 16, op = .key k.val true ∧ t.run = .running ∧ (t.reg d).toNat = k.val ∧ t.pc = s.pc) ∨
    (∃ img, op = .load img) ∨
    (∃ k p, op = .key k p ∧ 15 < k ∧ t.run = .faulted)

/-- The first press event resolves a wait, after any number of TICKs, TMRs and releases (R206, R226, R227): V[d] is the
key's index, the core runs on at the pc it waited with, and no instruction has run. -/
def Obligations.FirstPressResolvesKeyWait : Prop :=
  ∀ (ops : List HostOp) (s : State) (d : Reg) (k : Fin 16), s.run = .awaitingKey d →
    (∀ op ∈ ops, op = .tick ∨ op = .timer ∨ ∃ j : Fin 16, op = .key j.val false) →
    ∃ t, performAll (ops ++ [.key k.val true]) s = .next t ∧ t.run = .running ∧ (t.reg d).toNat = k.val ∧
      t.pc = s.pc ∧ t.keys[k] = true ∧ ∀ r : Reg, r ≠ d → t.reg r = s.reg r

/-! ### Host operations (45_host_operations) -/

/-- LOAD, success (R224): every element of the spec's state is set, from the image and FONT alone. -/
def Obligations.LoadResetsEverything : Prop :=
  ∀ (s : State) (img : List Byte), img.length ≤ 3584 → ∃ t, load (some img) s = .next t ∧
    (∀ r : Reg, t.reg r = 0) ∧ t.i = 0 ∧ t.pc.toNat = 512 ∧
    (∀ a : Nat, a < 4096 → t.readByte a =
      if h : a < 80 then s.font[a] else if h : 512 ≤ a ∧ a - 512 < img.length then img[a - 512] else 0) ∧
    (∀ k : Fin 16, t.stack[k] = 0) ∧ t.sp = 0 ∧ (∀ px py, t.pixel px py = false) ∧
    (∀ k : Fin 16, t.keys[k] = false) ∧ t.dt = 0 ∧ t.st = 0 ∧ t.draw = false ∧ t.run = .running ∧
    t.fcause = none ∧ t.fcauseCode = 0 ∧ t.fop = 0 ∧ t.fpc = 0

/-- No residue from a previous program (R224, R295): what LOAD leaves does not depend on the state before, but for the
model's own fields (FONT, the count of random bytes, the operations still to be served: log 5). -/
def Obligations.LoadLeavesNoResidue : Prop :=
  ∀ (s u t t' : State) (img : List Byte), u.font = s.font → load (some img) s = .next t → t.run = .running →
    load (some img) u = .next t' → t' = { t with draws := u.draws, inbox := u.inbox }

/-- LOAD, failure (R225): absent or too long, InvalidProgram with fop = fpc = 0, and no other state changes. -/
def Obligations.BadImageRaisesInvalidProgram : Prop :=
  ∀ s : State, (∃ t, load none s = .next t ∧ Raised .invalidProgram 0 0 s t) ∧
    ∀ img : List Byte, 3584 < img.length → ∃ t, load (some img) s = .next t ∧ Raised .invalidProgram 0 0 s t

/-- KEY with k in 0..15, by run state (R226). -/
def Obligations.KeyEventByRunState : Prop :=
  ∀ (s : State) (k : Fin 16) (p : Bool),
    ((s.run = .unloaded ∨ s.run = .faulted) → key k.val p s = .next s) ∧
    (s.run = .running → ∃ t, key k.val p s = .next t ∧
      (∀ j : Fin 16, t.keys[j] = if j = k then p else s.keys[j]) ∧ Keeps { keys := true } s t) ∧
    (∀ d, s.run = .awaitingKey d → ∃ t, key k.val p s = .next t ∧
      (∀ j : Fin 16, t.keys[j] = if j = k then p else s.keys[j]) ∧
      (p = true → (t.reg d).toNat = k.val ∧ t.run = .running ∧ Keeps { keys := true, regs := [d], run := true } s t) ∧
      (p = false → Keeps { keys := true } s t))

/-- KEY with an index outside 0..15 (R228): InvalidKey with fop = fpc = 0, no flag written, no wait resolved. That it
changes nothing before a load and after a fault is the model's reading (R237, R254; DEDUCED, log 9). -/
def Obligations.KeyIndexOutsideRangeFaults : Prop :=
  ∀ (s : State) (k : Nat) (p : Bool), 15 < k →
    (s.live → ∃ t, key k p s = .next t ∧ Raised .invalidKey 0 0 s t) ∧
    ((s.run = .unloaded ∨ s.run = .faulted) → key k p s = .next s)

/-- TMR by run state (R229): both timers down by 1, floored at 0, and nothing else. -/
def Obligations.TimerDecrementFloorsAtZero : Prop :=
  ∀ s : State,
    ((s.run = .unloaded ∨ s.run = .faulted) → perform .timer s = .next s) ∧
    (s.live → ∃ t, perform .timer s = .next t ∧ t.dt.toNat = s.dt.toNat - 1 ∧ t.st.toNat = s.st.toNat - 1 ∧
      Keeps { delay := true, sound := true } s t)

/-- However many TMRs in a row: each timer is down by their number, floored at 0, and never wraps (R229). -/
def Obligations.TimersNeverWrapUnderRepeatedTmr : Prop :=
  ∀ (n : Nat) (s : State), s.live → ∃ t, performAll (List.replicate n .timer) s = .next t ∧
    t.dt.toNat = s.dt.toNat - n ∧ t.st.toNat = s.st.toNat - n ∧ Keeps { delay := true, sound := true } s t

/-- FAULTED is terminal and frozen (R254): TICK, KEY and TMR change nothing, a failed LOAD rewrites the record with
InvalidProgram, and only a successful LOAD leaves it and clears the record. (KEY above 15 is KeyIndexOutsideRangeFaults.) -/
def Obligations.FaultedCoreIsFrozen : Prop :=
  ∀ s : State, s.run = .faulted →
    perform .tick s = .next s ∧ perform .timer s = .next s ∧
    (∀ (k : Fin 16) (p : Bool), perform (.key k.val p) s = .next s) ∧
    (∀ bytes : List Byte, bytes.length ≤ 3584 → ∃ t, perform (.load (some bytes)) s = .next t ∧ t.run = .running ∧
      t.fcause = none ∧ t.fop = 0 ∧ t.fpc = 0) ∧
    (∀ bytes : List Byte, 3584 < bytes.length → ∃ t, perform (.load (some bytes)) s = .next t ∧
      Raised .invalidProgram 0 0 s t) ∧
    (∃ t, perform (.load none) s = .next t ∧ Raised .invalidProgram 0 0 s t)

/-- Before any LOAD (R237): KEY and TMR change nothing, a LOAD leads to RUNNING or FAULTED, and TICK has no step, which
the model shows as the one stop of its own (log 6, DEDUCED). -/
def Obligations.OperationsBeforeFirstLoad : Prop :=
  ∀ s : State, s.atPowerOn →
    perform .tick s = .fault .tickBeforeLoad ∧ perform .timer s = .next s ∧
    (∀ (k : Fin 16) (p : Bool), perform (.key k.val p) s = .next s) ∧
    (∀ bytes : List Byte, bytes.length ≤ 3584 → ∃ t, perform (.load (some bytes)) s = .next t ∧ t.run = .running) ∧
    (∀ bytes : List Byte, 3584 < bytes.length → ∃ t, perform (.load (some bytes)) s = .next t ∧ t.run = .faulted) ∧
    (∃ t, perform (.load none) s = .next t ∧ t.run = .faulted)

/-- The model's convention (log 4, a DESIGN CHOICE under R62, R63): operations are served whole, one a step, in the order
in which they wait; a statement about every state is then one about every interleaving. -/
def Obligations.WaitingOperationsAreServedInOrder : Prop :=
  ∀ (s : State) (op : HostOp) (rest : List HostOp), s.inbox = op :: rest →
    step s = perform op { s with inbox := rest } ∧ ∀ t, step s = .next t → t.inbox = rest

/-! ### Rules of the whole machine -/

/-- Who writes what (R24, R28, R31, R32, R33, R34, R51): a meaning that changes I, a stack entry or sp, the framebuffer, a
memory cell, dt or st is one of those the spec names, and no instruction writes a key flag. -/
def Obligations.OnlyNamedInstructionsWrite : Prop :=
  ∀ (i : Instr) (s t : State), exec i s = .next t →
    t.keys = s.keys ∧
    (t.i ≠ s.i → i.pattern ∈ ["Annn", "Fx1E", "Fx29", "Fx55", "Fx65"]) ∧
    (t.stack ≠ s.stack → i.pattern = "2nnn") ∧
    (t.sp ≠ s.sp → i.pattern ∈ ["2nnn", "00EE"]) ∧
    (t.fb ≠ s.fb → i.pattern ∈ ["00E0", "Dxyn"]) ∧
    (t.mem ≠ s.mem → i.pattern ∈ ["Fx33", "Fx55"]) ∧
    (t.dt ≠ s.dt → i.pattern = "Fx15") ∧
    (t.st ≠ s.st → i.pattern = "Fx18")

/-- No instruction reads the sound timer or the draw flag (R34, R36): two states that differ in nothing else run alike
and still differ in nothing else. It compares two runs on equal inputs: both start from the same count draws, so a Cxnn
takes the same random byte in both, which is the model's form of the random source (log 3, DESIGN CHOICE). -/
def Obligations.SoundTimerAndDrawFlagAreNeverRead : Prop :=
  ∀ (i : Instr) (s t : State) (b : Byte) (f : Bool), exec i s = .next t →
    ∃ t', exec i { s with st := b, draw := f } = .next t' ∧ { t' with st := t.st, draw := t.draw } = t

/-- The end of a run (R310, the spec's own convention D23): at a jump to its own address, every TICK clears the draw flag
and changes nothing else. -/
def Obligations.SelfJumpIsFixedPoint : Prop :=
  ∀ s u : State, s.endedNormally → s.ticksNext u → step s = .next { u with draw := false }

/-- The word placed for the host runs next (the interface of the model, log 16): one step from the state with i's word
placed is exec of i on the advanced state, and the placing keeps every register, the stack, the display, the keys and the
timers. -/
def Obligations.PlacedWordRunsNext : Prop :=
  ∀ (s : State) (i : Instr), i.wellFormed = true → s.memCanonical →
    ∃ u, (s.withFetchWord 16 (encode i).toNat).ticksNext u ∧
      step (s.withFetchWord 16 (encode i).toNat) = exec i { u with pc := u.pc + 2, draw := false } ∧
      u.v = s.v ∧ u.i = s.i ∧ u.stack = s.stack ∧ u.sp = s.sp ∧ u.fb = s.fb ∧ u.keys = s.keys ∧ u.dt = s.dt ∧
      u.st = s.st ∧ u.inbox = s.inbox ∧ (s.pc.toNat ≤ 4094 → u.pc = s.pc)

/-! ### Invariants -/

/-- The invariants hold after reset (the values of R40; the parameter FONT at its default is PRESUMED, log 2; the canonical
form of memory is the model's own, log 10). -/
def Obligations.ResetMeetsInvariants : Prop :=
  State.reset.memCanonical ∧ State.reset.recordCoherent ∧ State.reset.pcBounded ∧
  (∀ s t : State, s.font = State.reset.font → load (some []) s = .next t →
    { t with draws := 0, inbox := [] } = State.reset)

/-- Every step keeps memory in its one canonical form: addresses strictly rising, all below 4096, no entry equal to its
reset contents. The form is the model's own way to hold memory (log 10, DESIGN CHOICE) and no rule of the spec, which gives
only the addresses 0..4095 and the reset contents (R26). -/
def Obligations.MemoryStaysCanonical : Prop :=
  ∀ s t : State, s.memCanonical → step s = .next t → t.memCanonical

/-- Every step keeps the fault record coherent: a cause is recorded exactly in FAULTED (R39), and it is never
RegisterOutOfBounds (R270). -/
def Obligations.FaultRecordStaysCoherent : Prop :=
  ∀ s t : State, s.recordCoherent → step s = .next t → t.recordCoherent

/-- Every step keeps, while the core runs or waits, pc at most 4350 and every live stack entry in 2..4096 (R116, marked by the
spec as its inference). -/
def Obligations.PcAndStackStayBounded : Prop :=
  ∀ s t : State, s.pcBounded → step s = .next t → t.pcBounded
end

