-- ==== Sys2Proof/Laws/Display.lean ====
section
/-! SUPPORT. The framebuffer: what toggling one pixel does, and the two loops of Dxyn in closed form (spec 43_display R181
to R184, R186 (b)). -/

namespace Sys2Proof.Machine

namespace Framebuffer

/-- Outside the grid there is no pixel. -/
theorem pixel_outside (fb : Framebuffer) (px py : Nat) (h : ¬ (px < 64 ∧ py < 32)) : fb.pixel px py = false := by
  simp [pixel, h]

/-- A pixel that is on lies in the grid. -/
theorem pixel_inside (fb : Framebuffer) (px py : Nat) (h : fb.pixel px py = true) : px < 64 ∧ py < 32 := by
  by_contra hn
  rw [pixel_outside fb px py hn] at h
  cases h

/-- Toggling changes the one pixel named, and nothing where there is none (R183). -/
theorem pixel_toggle (fb : Framebuffer) (x y px py : Nat) :
    (fb.toggle x y).pixel px py = (fb.pixel px py ^^ decide (px = x ∧ py = y ∧ x < 64 ∧ y < 32)) := by
  by_cases hin : x < 64 ∧ y < 32
  · by_cases hp : px < 64 ∧ py < 32
    · rw [toggle, dif_pos hin, pixel, dif_pos hp, pixel, dif_pos hp]
      simp only [Vector.getElem_set]
      by_cases hy : y = py
      · subst hy
        by_cases hx : x = px
        · subst hx
          simp [hin.1, hin.2]
        · simp [hx, show px ≠ x from fun h => hx h.symm]
      · simp [hy, show py ≠ y from fun h => hy h.symm]
    · rw [pixel_outside _ px py hp, pixel_outside _ px py hp]
      have : ¬ (px = x ∧ py = y ∧ x < 64 ∧ y < 32) := by
        rintro ⟨rfl, rfl, h1, h2⟩
        exact hp ⟨h1, h2⟩
      simp [this]
  · simp [toggle, hin]

/-- Every pixel of the blank framebuffer is off. -/
@[simp] theorem pixel_blank (px py : Nat) : Framebuffer.pixel blank px py = false := by
  simp [pixel, blank]

/-- Framebuffers with the same pixels in the grid are equal. -/
theorem ext_pixel (f g : Framebuffer) (h : ∀ px py, px < 64 → py < 32 → f.pixel px py = g.pixel px py) : f = g := by
  apply Vector.ext
  intro py hy
  apply Vector.ext
  intro px hx
  simpa [pixel, hx, hy] using h px py hx hy

end Framebuffer

namespace Canvas

/-- The first k bits of a row, in closed form. -/
theorem foldl_bits (c : Canvas) (row : Byte) (x y k : Nat) :
    let d := (List.range k).foldl (fun c i => if spriteBit row i then c.plot (x + i) y else c) c
    (∀ px py, d.fb.pixel px py =
      (c.fb.pixel px py ^^ (decide (x ≤ px ∧ px < x + k ∧ py = y ∧ px < 64 ∧ py < 32) && spriteBit row (px - x)))) ∧
    (d.hit = true ↔ c.hit = true ∨ ∃ i < k, spriteBit row i = true ∧ c.fb.pixel (x + i) y = true) := by
  induction k with
  | zero =>
    refine ⟨fun px py => ?_, by simp⟩
    rw [decide_eq_false (show ¬ (x ≤ px ∧ px < x + 0 ∧ py = y ∧ px < 64 ∧ py < 32) by omega)]
    simp
  | succ k ih =>
    simp only [List.range_succ, List.foldl_append, List.foldl_cons, List.foldl_nil]
    generalize (List.range k).foldl (fun c i => if spriteBit row i then c.plot (x + i) y else c) c = d at ih ⊢
    obtain ⟨ihp, ihh⟩ := ih
    have hk : d.fb.pixel (x + k) y = c.fb.pixel (x + k) y := by
      rw [ihp]
      simp
    constructor
    · intro px py
      by_cases hb : spriteBit row k = true
      · rw [if_pos hb, plot, Framebuffer.pixel_toggle, ihp]
        by_cases hp : px = x + k
        · subst hp
          by_cases hy : py = y
          · subst hy
            by_cases hg : x + k < 64 ∧ py < 32
            · simp [hg.1, hg.2, hb]
            · have h0 : ¬ (x ≤ x + k ∧ x + k < x + k ∧ py = py ∧ x + k < 64 ∧ py < 32) := by omega
              have h1 : ¬ (x + k = x + k ∧ py = py ∧ x + k < 64 ∧ py < 32) := by omega
              have h2 : ¬ (x ≤ x + k ∧ x + k < x + (k + 1) ∧ py = py ∧ x + k < 64 ∧ py < 32) := by omega
              rw [decide_eq_false h0, decide_eq_false h1, decide_eq_false h2]
              simp
          · simp [hy]
        · have e : (x ≤ px ∧ px < x + (k + 1) ∧ py = y ∧ px < 64 ∧ py < 32) ↔
              (x ≤ px ∧ px < x + k ∧ py = y ∧ px < 64 ∧ py < 32) := by omega
          simp [hp, e]
      · rw [if_neg hb, ihp]
        by_cases hp : px = x + k
        · subst hp
          simp [hb]
        · have e : (x ≤ px ∧ px < x + (k + 1) ∧ py = y ∧ px < 64 ∧ py < 32) ↔
              (x ≤ px ∧ px < x + k ∧ py = y ∧ px < 64 ∧ py < 32) := by omega
          simp [e]
    · by_cases hb : spriteBit row k = true
      · rw [if_pos hb, plot]
        simp only [Bool.or_eq_true, ihh, hk]
        constructor
        · rintro ((h | ⟨i, hi, h⟩) | h)
          · exact .inl h
          · exact .inr ⟨i, by omega, h⟩
          · exact .inr ⟨k, by omega, hb, h⟩
        · rintro (h | ⟨i, hi, h⟩)
          · exact .inl (.inl h)
          · by_cases e : i = k
            · subst e
              exact .inr h.2
            · exact .inl (.inr ⟨i, by omega, h⟩)
      · rw [if_neg hb, ihh]
        constructor
        · rintro (h | ⟨i, hi, h⟩)
          · exact .inl h
          · exact .inr ⟨i, by omega, h⟩
        · rintro (h | ⟨i, hi, h⟩)
          · exact .inl h
          · by_cases e : i = k
            · subst e
              exact absurd h.1 hb
            · exact .inr ⟨i, by omega, h⟩

/-- The pixels after one sprite row. -/
theorem pixel_drawRow (c : Canvas) (row : Byte) (x y px py : Nat) :
    (c.drawRow row x y).fb.pixel px py =
      (c.fb.pixel px py ^^ (decide (x ≤ px ∧ px < x + 8 ∧ py = y ∧ px < 64 ∧ py < 32) && spriteBit row (px - x))) :=
  (foldl_bits c row x y 8).1 px py

/-- The collision flag after one sprite row. -/
theorem hit_drawRow (c : Canvas) (row : Byte) (x y : Nat) :
    (c.drawRow row x y).hit = true ↔
      c.hit = true ∨ ∃ i < 8, spriteBit row i = true ∧ c.fb.pixel (x + i) y = true :=
  (foldl_bits c row x y 8).2

/-- The sprite bit at a place of the grid, in closed form. -/
def covers (rows : List Byte) (x y px py : Nat) : Bool :=
  if h : x ≤ px ∧ px < x + 8 ∧ y ≤ py ∧ py - y < rows.length then spriteBit rows[py - y] (px - x) else false

/-- The pixels after all rows: each pixel of the grid is toggled exactly where the sprite has a bit of value 1. -/
theorem pixel_drawRows (c : Canvas) (rows : List Byte) (x y px py : Nat) :
    (c.drawRows x y rows).fb.pixel px py =
      (c.fb.pixel px py ^^ (decide (px < 64 ∧ py < 32) && covers rows x y px py)) := by
  induction rows generalizing c y with
  | nil => simp [drawRows, covers]
  | cons row rest ih =>
    rw [drawRows, ih, pixel_drawRow, Bool.xor_assoc]
    congr 1
    by_cases hg : px < 64 ∧ py < 32
    · by_cases hx : x ≤ px ∧ px < x + 8
      · rcases Nat.lt_trichotomy py y with h | h | h
        · have h1 : ¬ (y + 1 ≤ py) := by omega
          have h2 : ¬ (y ≤ py) := by omega
          simp [covers, h1, h2, show py ≠ y by omega]
        · subst h
          simp [covers, hx.1, hx.2, hg.1, hg.2]
        · obtain ⟨d, rfl⟩ : ∃ d, py = y + 1 + d := ⟨py - y - 1, by omega⟩
          have e1 : y + 1 + d - y = d + 1 := by omega
          have e2 : y + 1 + d - (y + 1) = d := by omega
          simp [covers, hx.1, hx.2, hg.1, hg.2, e1, e2, show y ≤ y + 1 + d by omega, show y + 1 + d ≠ y by omega]
      · have h1 : ¬ (x ≤ px ∧ px < x + 8 ∧ py = y ∧ px < 64 ∧ py < 32) := by omega
        have h2 : ∀ z (l : List Byte), ¬ (x ≤ px ∧ px < x + 8 ∧ z ≤ py ∧ py - z < l.length) := by
          intro z l h
          exact hx ⟨h.1, h.2.1⟩
        simp only [covers, h2, dite_false, h1, decide_false, Bool.false_and, Bool.and_false, Bool.xor_false]
    · have h1 : ¬ (x ≤ px ∧ px < x + 8 ∧ py = y ∧ px < 64 ∧ py < 32) := by omega
      rw [decide_eq_false h1, decide_eq_false hg]
      simp

/-- The collision flag after all rows: some sprite bit of value 1 fell on a pixel that was on before the instruction. -/
theorem hit_drawRows (c : Canvas) (rows : List Byte) (x y : Nat) :
    (c.drawRows x y rows).hit = true ↔
      c.hit = true ∨ ∃ px py, covers rows x y px py = true ∧ c.fb.pixel px py = true := by
  induction rows generalizing c y with
  | nil => simp [drawRows, covers]
  | cons row rest ih =>
    have below : ∀ px py, y + 1 ≤ py → (c.drawRow row x y).fb.pixel px py = c.fb.pixel px py := by
      intro px py h
      rw [pixel_drawRow]
      have : ¬ (x ≤ px ∧ px < x + 8 ∧ py = y ∧ px < 64 ∧ py < 32) := by omega
      simp [this]
    have step : ∀ px d, covers (row :: rest) x y px (y + 1 + d) = covers rest x (y + 1) px (y + 1 + d) := by
      intro px d
      have e1 : y + 1 + d - y = d + 1 := by omega
      have e2 : y + 1 + d - (y + 1) = d := by omega
      simp [covers, e1, e2, show y ≤ y + 1 + d by omega]
    have first : ∀ i, i < 8 → covers (row :: rest) x y (x + i) y = spriteBit row i := by
      intro i hi
      simp [covers, hi]
    have low : ∀ px py, covers rest x (y + 1) px py = true → y + 1 ≤ py := by
      intro px py h
      by_contra hn
      simp [covers, hn] at h
    have dom : ∀ px py, covers (row :: rest) x y px py = true → x ≤ px ∧ px < x + 8 ∧ y ≤ py := by
      intro px py h
      by_contra hn
      have : ¬ (x ≤ px ∧ px < x + 8 ∧ y ≤ py ∧ py - y < (row :: rest).length) := fun g => hn ⟨g.1, g.2.1, g.2.2.1⟩
      simp only [covers, this, dite_false] at h
      cases h
    rw [drawRows, ih, hit_drawRow]
    constructor
    · rintro ((h | ⟨i, hi, hb, hp⟩) | ⟨px, py, hc, hp⟩)
      · exact .inl h
      · exact .inr ⟨x + i, y, by rw [first i hi, hb], hp⟩
      · have hy := low px py hc
        obtain ⟨d, rfl⟩ : ∃ d, py = y + 1 + d := ⟨py - y - 1, by omega⟩
        exact .inr ⟨px, y + 1 + d, by rw [step, hc], by rw [← below px _ hy, hp]⟩
    · rintro (h | ⟨px, py, hc, hp⟩)
      · exact .inl (.inl h)
      · obtain ⟨h1, h2, h3⟩ := dom px py hc
        by_cases hy : py = y
        · subst hy
          obtain ⟨i, rfl⟩ : ∃ i, px = x + i := ⟨px - x, by omega⟩
          exact .inl (.inr ⟨i, by omega, by rw [← first i (by omega), hc], hp⟩)
        · obtain ⟨d, rfl⟩ : ∃ d, py = y + 1 + d := ⟨py - y - 1, by omega⟩
          exact .inr ⟨px, y + 1 + d, by rw [← step, hc], by rw [below px _ (by omega), hp]⟩

end Canvas

end Sys2Proof.Machine
end

