-- ==== Sys2Proof/Laws/Encoding.lean ====
section
/-! SUPPORT. The encoder's formats and the decoder's fields as numbers, and the fields of the words the formats build. -/

namespace Sys2Proof

theorem toNat_append_mul {n m : Nat} (a : BitVec n) (b : BitVec m) : (a ++ b).toNat = a.toNat * 2 ^ m + b.toNat := by
  rw [BitVec.toNat_append, ← Nat.shiftLeft_add_eq_or_of_lt b.isLt, Nat.shiftLeft_eq]

/-! ### The formats as numbers (R82) -/

theorem wordNNN_toNat (t : BitVec 4) (nnn : Addr) : (wordNNN t nnn).toNat = t.toNat * 4096 + nnn.toNat :=
  toNat_append_mul t nnn

theorem wordXNN_toNat (t : BitVec 4) (x : Reg) (nn : Byte) :
    (wordXNN t x nn).toNat = t.toNat * 4096 + x.val * 256 + nn.toNat := by
  have h1 : (wordXNN t x nn).toNat = (t ++ regBits x).toNat * 2 ^ 8 + nn.toNat := toNat_append_mul _ nn
  have h2 : (t ++ regBits x).toNat = t.toNat * 2 ^ 4 + x.val := toNat_append_mul t (regBits x)
  rw [h1, h2]
  ring

theorem wordXYN_toNat (t : BitVec 4) (x y : Reg) (n : BitVec 4) :
    (wordXYN t x y n).toNat = t.toNat * 4096 + x.val * 256 + y.val * 16 + n.toNat := by
  have h1 : (wordXYN t x y n).toNat = (t ++ regBits x).toNat * 2 ^ 8 + (regBits y ++ n).toNat := toNat_append_mul _ _
  have h2 : (t ++ regBits x).toNat = t.toNat * 2 ^ 4 + x.val := toNat_append_mul t (regBits x)
  have h3 : (regBits y ++ n).toNat = y.val * 2 ^ 4 + n.toNat := toNat_append_mul (regBits y) n
  rw [h1, h2, h3]
  ring

theorem wordOfBytes_toNat (hi lo : Byte) : (wordOfBytes hi lo).toNat = hi.toNat * 256 + lo.toNat :=
  toNat_append_mul hi lo

/-! ### The fields as numbers (R81) -/

theorem fieldTop_toNat (w : Word) : (fieldTop w).toNat = w.toNat / 4096 % 16 := by
  simp [fieldTop, BitVec.extractLsb'_toNat, Nat.shiftRight_eq_div_pow]

theorem fieldX_val (w : Word) : (fieldX w).val = w.toNat / 256 % 16 := by
  simp [fieldX, Nat.shiftRight_eq_div_pow]

theorem fieldY_val (w : Word) : (fieldY w).val = w.toNat / 16 % 16 := by
  simp [fieldY, Nat.shiftRight_eq_div_pow]

theorem fieldN_toNat (w : Word) : (fieldN w).toNat = w.toNat % 16 := by
  simp [fieldN, BitVec.extractLsb'_toNat]

theorem fieldNN_toNat (w : Word) : (fieldNN w).toNat = w.toNat % 256 := by
  simp [fieldNN, BitVec.extractLsb'_toNat]

theorem fieldNNN_toNat (w : Word) : (fieldNNN w).toNat = w.toNat % 4096 := by
  simp [fieldNNN, BitVec.extractLsb'_toNat]

theorem highByte_toNat (w : Word) : (highByte w).toNat = w.toNat / 256 := by
  have h := w.isLt
  simp only [highByte, BitVec.extractLsb'_toNat, Nat.shiftRight_eq_div_pow]
  omega

theorem lowByte_toNat (w : Word) : (lowByte w).toNat = w.toNat % 256 := by
  simp [lowByte, BitVec.extractLsb'_toNat]

@[simp] theorem wordOfBytes_highByte_lowByte (w : Word) : wordOfBytes (highByte w) (lowByte w) = w := by
  apply BitVec.eq_of_toNat_eq
  rw [wordOfBytes_toNat, highByte_toNat, lowByte_toNat]
  omega

/-! ### Fields of each format -/

@[simp] theorem fieldTop_wordNNN (t : BitVec 4) (nnn : Addr) : fieldTop (wordNNN t nnn) = t := by
  apply BitVec.eq_of_toNat_eq
  rw [fieldTop_toNat, wordNNN_toNat]
  omega

@[simp] theorem fieldNNN_wordNNN (t : BitVec 4) (nnn : Addr) : fieldNNN (wordNNN t nnn) = nnn := by
  apply BitVec.eq_of_toNat_eq
  rw [fieldNNN_toNat, wordNNN_toNat]
  omega

@[simp] theorem fieldTop_wordXNN (t : BitVec 4) (x : Reg) (nn : Byte) : fieldTop (wordXNN t x nn) = t := by
  apply BitVec.eq_of_toNat_eq
  rw [fieldTop_toNat, wordXNN_toNat]
  omega

@[simp] theorem fieldX_wordXNN (t : BitVec 4) (x : Reg) (nn : Byte) : fieldX (wordXNN t x nn) = x := by
  apply Fin.ext
  rw [fieldX_val, wordXNN_toNat]
  omega

@[simp] theorem fieldNN_wordXNN (t : BitVec 4) (x : Reg) (nn : Byte) : fieldNN (wordXNN t x nn) = nn := by
  apply BitVec.eq_of_toNat_eq
  rw [fieldNN_toNat, wordXNN_toNat]
  omega

@[simp] theorem fieldTop_wordXYN (t : BitVec 4) (x y : Reg) (n : BitVec 4) : fieldTop (wordXYN t x y n) = t := by
  apply BitVec.eq_of_toNat_eq
  rw [fieldTop_toNat, wordXYN_toNat]
  omega

@[simp] theorem fieldX_wordXYN (t : BitVec 4) (x y : Reg) (n : BitVec 4) : fieldX (wordXYN t x y n) = x := by
  apply Fin.ext
  rw [fieldX_val, wordXYN_toNat]
  omega

@[simp] theorem fieldY_wordXYN (t : BitVec 4) (x y : Reg) (n : BitVec 4) : fieldY (wordXYN t x y n) = y := by
  apply Fin.ext
  rw [fieldY_val, wordXYN_toNat]
  omega

@[simp] theorem fieldN_wordXYN (t : BitVec 4) (x y : Reg) (n : BitVec 4) : fieldN (wordXYN t x y n) = n := by
  apply BitVec.eq_of_toNat_eq
  rw [fieldN_toNat, wordXYN_toNat]
  omega

/-! ### Numbers as formats -/

theorem ofNat_eq_wordNNN (t : BitVec 4) (nnn : Addr) (k : Nat) (h : k = t.toNat * 4096 + nnn.toNat) :
    BitVec.ofNat 16 k = wordNNN t nnn := by
  apply BitVec.eq_of_toNat_eq
  rw [wordNNN_toNat, BitVec.toNat_ofNat, h]
  omega

theorem ofNat_eq_wordXNN (t : BitVec 4) (x : Reg) (nn : Byte) (k : Nat)
    (h : k = t.toNat * 4096 + x.val * 256 + nn.toNat) : BitVec.ofNat 16 k = wordXNN t x nn := by
  apply BitVec.eq_of_toNat_eq
  rw [wordXNN_toNat, BitVec.toNat_ofNat, h]
  omega

theorem ofNat_eq_wordXYN (t : BitVec 4) (x y : Reg) (n : BitVec 4) (k : Nat)
    (h : k = t.toNat * 4096 + x.val * 256 + y.val * 16 + n.toNat) : BitVec.ofNat 16 k = wordXYN t x y n := by
  apply BitVec.eq_of_toNat_eq
  rw [wordXYN_toNat, BitVec.toNat_ofNat, h]
  omega

/-! ### Words from their fields: a word is the format of its own fields -/

theorem wordNNN_fields (w : Word) : wordNNN (fieldTop w) (fieldNNN w) = w := by
  apply BitVec.eq_of_toNat_eq
  rw [wordNNN_toNat, fieldTop_toNat, fieldNNN_toNat]
  omega

theorem wordXNN_fields (w : Word) : wordXNN (fieldTop w) (fieldX w) (fieldNN w) = w := by
  apply BitVec.eq_of_toNat_eq
  rw [wordXNN_toNat, fieldTop_toNat, fieldX_val, fieldNN_toNat]
  omega

theorem wordXYN_fields (w : Word) : wordXYN (fieldTop w) (fieldX w) (fieldY w) (fieldN w) = w := by
  apply BitVec.eq_of_toNat_eq
  rw [wordXYN_toNat, fieldTop_toNat, fieldX_val, fieldY_val, fieldN_toNat]
  omega

/-! ### The masks of the opcode map pick fields (R84) -/

theorem getLsbD_wordNNN (t : BitVec 4) (nnn : Addr) (k : Nat) :
    (wordNNN t nnn).getLsbD k = if k < 12 then nnn.getLsbD k else t.getLsbD (k - 12) := by
  have h : (wordNNN t nnn).getLsbD k = _ := BitVec.getLsbD_append
  rw [h]

theorem getLsbD_wordXNN (t : BitVec 4) (x : Reg) (nn : Byte) (k : Nat) :
    (wordXNN t x nn).getLsbD k =
      if k < 8 then nn.getLsbD k else if k - 8 < 4 then (regBits x).getLsbD (k - 8) else t.getLsbD (k - 8 - 4) := by
  have h : (wordXNN t x nn).getLsbD k = _ := BitVec.getLsbD_append
  rw [h, BitVec.getLsbD_append]

theorem getLsbD_wordXYN (t : BitVec 4) (x y : Reg) (n : BitVec 4) (k : Nat) :
    (wordXYN t x y n).getLsbD k =
      if k < 8 then (if k < 4 then n.getLsbD k else (regBits y).getLsbD (k - 4))
      else if k - 8 < 4 then (regBits x).getLsbD (k - 8) else t.getLsbD (k - 8 - 4) := by
  have h : (wordXYN t x y n).getLsbD k = _ := BitVec.getLsbD_append
  rw [h, BitVec.getLsbD_append, BitVec.getLsbD_append]

/-- Mask 0xF000: the top nibble. -/
theorem and_F000 (w : Word) : w &&& 0xF000 = wordNNN (fieldTop w) 0 := by
  apply BitVec.eq_of_getLsbD_eq
  intro k hk
  rw [getLsbD_wordNNN]
  interval_cases k <;> simp [fieldTop]

/-- Mask 0xF00F: the top nibble and n. -/
theorem and_F00F (w : Word) : w &&& 0xF00F = wordXYN (fieldTop w) 0 0 (fieldN w) := by
  apply BitVec.eq_of_getLsbD_eq
  intro k hk
  rw [getLsbD_wordXYN]
  interval_cases k <;> simp [fieldTop, fieldN, regBits]

/-- Mask 0xF0FF: the top nibble and nn. -/
theorem and_F0FF (w : Word) : w &&& 0xF0FF = wordXNN (fieldTop w) 0 (fieldNN w) := by
  apply BitVec.eq_of_getLsbD_eq
  intro k hk
  rw [getLsbD_wordXNN]
  interval_cases k <;> simp [fieldTop, fieldNN, regBits]

end Sys2Proof
end

