-- ==== Sys2Proof/Laws/Memory.lean ====
section
/-! SUPPORT. Memory: reading after writing, and the canonical form that every operation keeps. -/

namespace Sys2Proof.Machine

namespace Memory

/-! ### Reading after writing -/

theorem read_below (font : Vector Byte 80) (m : Memory) (lo a : Nat) (hm : wfFrom font lo m = true) (h : a < lo) :
    read font m a = unlistedByte font a := by
  induction m generalizing lo with
  | nil => rfl
  | cons cell rest ih =>
    obtain ⟨c, b⟩ := cell
    simp only [wfFrom, Bool.and_eq_true, decide_eq_true_eq] at hm
    rw [read, if_neg (by omega), ih (c + 1) hm.2 (by omega)]

/-- Inserting a cell changes that cell and no other. -/
theorem read_insert (font : Vector Byte 80) (m : Memory) (lo a x : Nat) (b : Byte) (hm : wfFrom font lo m = true) :
    read font (insert font a b m) x = if x = a then b else read font m x := by
  induction m generalizing lo with
  | nil =>
    unfold insert
    grind [read]
  | cons cell rest ih =>
    obtain ⟨c, d⟩ := cell
    simp only [wfFrom, Bool.and_eq_true, decide_eq_true_eq] at hm
    have hlow := read_below font rest (c + 1) x hm.2
    have hlowa := read_below font rest (c + 1) a hm.2
    have := ih (c + 1) hm.2
    unfold insert
    grind [read]

/-- Inserting keeps the canonical form. -/
theorem wfFrom_insert (font : Vector Byte 80) (m : Memory) (lo a : Nat) (b : Byte) (hm : wfFrom font lo m = true)
    (hlo : lo ≤ a) (ha : a < Config.memSize) : wfFrom font lo (insert font a b m) = true := by
  induction m generalizing lo with
  | nil =>
    unfold insert
    grind [wfFrom]
  | cons cell rest ih =>
    obtain ⟨c, d⟩ := cell
    simp only [wfFrom, Bool.and_eq_true, decide_eq_true_eq] at hm
    have weaken : ∀ (l : Memory) (p q : Nat), q ≤ p → wfFrom font p l = true → wfFrom font q l = true := by
      intro l p q hpq hl
      cases l with
      | nil => rfl
      | cons e r => grind [wfFrom]
    unfold insert
    split
    · have := ih (c + 1) hm.2 (by omega)
      grind [wfFrom]
    · split
      · split
        · exact weaken rest (c + 1) lo (by omega) hm.2
        · grind [wfFrom]
      · split
        · grind [wfFrom]
        · grind [wfFrom]

/-- Every write keeps the canonical form. -/
theorem wf_write (font : Vector Byte 80) (m : Memory) (a : Nat) (b : Byte) (hm : wf font m = true) :
    wf font (write font m a b) = true := by
  unfold write
  split
  · exact wfFrom_insert font m 0 a b hm (Nat.zero_le a) ‹_›
  · exact hm

/-- A write changes the cell written and no other; it changes nothing where no cell exists. -/
theorem read_write (font : Vector Byte 80) (m : Memory) (a x : Nat) (b : Byte) (hm : wf font m = true) :
    read font (write font m a b) x = if x = a ∧ a < Config.memSize then b else read font m x := by
  unfold write
  split
  · rw [read_insert font m 0 a x b hm]
    grind
  · grind

/-- Consecutive writes keep the canonical form. -/
theorem wf_writeBytes (font : Vector Byte 80) (m : Memory) (a : Nat) (bs : List Byte) (hm : wf font m = true) :
    wf font (writeBytes font m a bs) = true := by
  induction bs generalizing a with
  | nil => exact hm
  | cons b rest ih => exact wf_write font _ a b (ih (a + 1))

/-- Consecutive writes inside memory put the k-th byte at a + k and change no other cell. -/
theorem read_writeBytes (font : Vector Byte 80) (m : Memory) (a x : Nat) (bs : List Byte) (hm : wf font m = true)
    (ha : a + bs.length ≤ Config.memSize) :
    read font (writeBytes font m a bs) x = if h : a ≤ x ∧ x - a < bs.length then bs[x - a] else read font m x := by
  induction bs generalizing a with
  | nil => simp [writeBytes]
  | cons b rest ih =>
    simp only [List.length_cons] at ha
    rw [writeBytes, read_write _ _ _ _ _ (wf_writeBytes font m (a + 1) rest hm), ih (a + 1) (by omega)]
    by_cases hx : x = a
    · subst hx
      simp
      omega
    · by_cases hlt : a ≤ x
      · obtain ⟨d, rfl⟩ : ∃ d, x = a + 1 + d := ⟨x - a - 1, by omega⟩
        have e1 : a + 1 + d - a = d + 1 := by omega
        have e2 : a + 1 + d - (a + 1) = d := by omega
        simp [e1, e2, show a ≤ a + 1 + d by omega, show a + 1 + d ≠ a by omega]
      · simp [hx, hlt, show ¬ a + 1 ≤ x by omega]

/-- The empty list is canonical: every cell holds its reset contents. -/
theorem wf_nil (font : Vector Byte 80) : wf font [] = true := rfl

end Memory

end Sys2Proof.Machine
end

