-- ==== Sys2Proof/Laws/Stack.lean ====
section
/-! SUPPORT. What Push and Pop can answer (spec 40_cycle_and_control R106, R107). -/

namespace Sys2Proof.Machine.State

/-- A push answers none exactly at sp = 16. -/
theorem push_eq_none (s : State) (w : Word) : s.push w = none ↔ s.sp.val = 16 := by
  unfold push
  split
  · simp; omega
  · simp; omega

/-- A push below 16 writes the slot sp, adds one to sp and changes nothing else. -/
theorem push_eq_some (s t : State) (w : Word) (h : s.push w = some t) :
    ∃ hs : s.sp.val < 16, t = { s with stack := s.stack.set s.sp.val w hs, sp := ⟨s.sp.val + 1, by omega⟩ } := by
  unfold push at h
  split at h
  · exact ⟨‹_›, (Option.some.inj h).symm⟩
  · cases h

/-- Below 16 a push answers. -/
theorem push_of_lt (s : State) (w : Word) (hs : s.sp.val < 16) :
    s.push w = some { s with stack := s.stack.set s.sp.val w hs, sp := ⟨s.sp.val + 1, by omega⟩ } := by
  simp [push, hs]

/-- A pop answers none exactly at sp = 0. -/
theorem pop_eq_none (s : State) : s.pop = none ↔ s.sp.val = 0 := by
  unfold pop
  split <;> simp_all

/-- Above 0 a pop answers the slot sp - 1, subtracts one from sp and changes nothing else; the slot stays. -/
theorem pop_of_pos (s : State) (hs : s.sp.val ≠ 0) :
    s.pop = some (s.stack[s.sp.val - 1]'(by omega), { s with sp := ⟨s.sp.val - 1, by omega⟩ }) := by
  simp [pop, hs]

/-- A pop that answers does so above 0. -/
theorem pop_eq_some (s t : State) (w : Word) (h : s.pop = some (w, t)) :
    ∃ _hs : s.sp.val ≠ 0, w = s.stack[s.sp.val - 1]'(by omega) ∧ t = { s with sp := ⟨s.sp.val - 1, by omega⟩ } := by
  by_cases hs : s.sp.val = 0
  · rw [(pop_eq_none s).2 hs] at h
    cases h
  · rw [pop_of_pos s hs] at h
    simp only [Option.some.injEq, Prod.mk.injEq] at h
    exact ⟨hs, h.1.symm, h.2.symm⟩

end Sys2Proof.Machine.State
end

