-- ==== Sys2Proof/Laws/State.lean ====
section
/-! SUPPORT. One lemma per field per update of State, and per accessor per update that does not touch what it reads. -/

namespace Sys2Proof.Machine.State

/-! ### setReg -/

@[simp] theorem setReg_v (s : State) (r : Reg) (b : Byte) : (s.setReg r b).v = s.v.set r b := rfl
@[simp] theorem setReg_i (s : State) (r : Reg) (b : Byte) : (s.setReg r b).i = s.i := rfl
@[simp] theorem setReg_pc (s : State) (r : Reg) (b : Byte) : (s.setReg r b).pc = s.pc := rfl
@[simp] theorem setReg_mem (s : State) (r : Reg) (b : Byte) : (s.setReg r b).mem = s.mem := rfl
@[simp] theorem setReg_stack (s : State) (r : Reg) (b : Byte) : (s.setReg r b).stack = s.stack := rfl
@[simp] theorem setReg_sp (s : State) (r : Reg) (b : Byte) : (s.setReg r b).sp = s.sp := rfl
@[simp] theorem setReg_fb (s : State) (r : Reg) (b : Byte) : (s.setReg r b).fb = s.fb := rfl
@[simp] theorem setReg_keys (s : State) (r : Reg) (b : Byte) : (s.setReg r b).keys = s.keys := rfl
@[simp] theorem setReg_dt (s : State) (r : Reg) (b : Byte) : (s.setReg r b).dt = s.dt := rfl
@[simp] theorem setReg_st (s : State) (r : Reg) (b : Byte) : (s.setReg r b).st = s.st := rfl
@[simp] theorem setReg_draw (s : State) (r : Reg) (b : Byte) : (s.setReg r b).draw = s.draw := rfl
@[simp] theorem setReg_run (s : State) (r : Reg) (b : Byte) : (s.setReg r b).run = s.run := rfl
@[simp] theorem setReg_fcause (s : State) (r : Reg) (b : Byte) : (s.setReg r b).fcause = s.fcause := rfl
@[simp] theorem setReg_fop (s : State) (r : Reg) (b : Byte) : (s.setReg r b).fop = s.fop := rfl
@[simp] theorem setReg_fpc (s : State) (r : Reg) (b : Byte) : (s.setReg r b).fpc = s.fpc := rfl
@[simp] theorem setReg_font (s : State) (r : Reg) (b : Byte) : (s.setReg r b).font = s.font := rfl
@[simp] theorem setReg_draws (s : State) (r : Reg) (b : Byte) : (s.setReg r b).draws = s.draws := rfl
@[simp] theorem setReg_inbox (s : State) (r : Reg) (b : Byte) : (s.setReg r b).inbox = s.inbox := rfl
@[simp] theorem setReg_readByte (s : State) (r : Reg) (b : Byte) (c : Nat) : (s.setReg r b).readByte c = s.readByte c := rfl
@[simp] theorem setReg_ea (s : State) (r : Reg) (b : Byte) (c : Nat) : (s.setReg r b).ea c = s.ea c := rfl

/-! ### setFlag -/

@[simp] theorem setFlag_v (s : State) (f : Bool) : (s.setFlag f).v = s.v.set vf (flagByte f) := rfl
@[simp] theorem setFlag_i (s : State) (f : Bool) : (s.setFlag f).i = s.i := rfl
@[simp] theorem setFlag_pc (s : State) (f : Bool) : (s.setFlag f).pc = s.pc := rfl
@[simp] theorem setFlag_mem (s : State) (f : Bool) : (s.setFlag f).mem = s.mem := rfl
@[simp] theorem setFlag_stack (s : State) (f : Bool) : (s.setFlag f).stack = s.stack := rfl
@[simp] theorem setFlag_sp (s : State) (f : Bool) : (s.setFlag f).sp = s.sp := rfl
@[simp] theorem setFlag_fb (s : State) (f : Bool) : (s.setFlag f).fb = s.fb := rfl
@[simp] theorem setFlag_keys (s : State) (f : Bool) : (s.setFlag f).keys = s.keys := rfl
@[simp] theorem setFlag_dt (s : State) (f : Bool) : (s.setFlag f).dt = s.dt := rfl
@[simp] theorem setFlag_st (s : State) (f : Bool) : (s.setFlag f).st = s.st := rfl
@[simp] theorem setFlag_draw (s : State) (f : Bool) : (s.setFlag f).draw = s.draw := rfl
@[simp] theorem setFlag_run (s : State) (f : Bool) : (s.setFlag f).run = s.run := rfl
@[simp] theorem setFlag_fcause (s : State) (f : Bool) : (s.setFlag f).fcause = s.fcause := rfl
@[simp] theorem setFlag_fop (s : State) (f : Bool) : (s.setFlag f).fop = s.fop := rfl
@[simp] theorem setFlag_fpc (s : State) (f : Bool) : (s.setFlag f).fpc = s.fpc := rfl
@[simp] theorem setFlag_font (s : State) (f : Bool) : (s.setFlag f).font = s.font := rfl
@[simp] theorem setFlag_draws (s : State) (f : Bool) : (s.setFlag f).draws = s.draws := rfl
@[simp] theorem setFlag_inbox (s : State) (f : Bool) : (s.setFlag f).inbox = s.inbox := rfl
@[simp] theorem setFlag_readByte (s : State) (f : Bool) (c : Nat) : (s.setFlag f).readByte c = s.readByte c := rfl
@[simp] theorem setFlag_ea (s : State) (f : Bool) (c : Nat) : (s.setFlag f).ea c = s.ea c := rfl

/-! ### setFlagThenReg -/

@[simp] theorem setFlagThenReg_v (s : State) (f : Bool) (x : Reg) (b : Byte) : (s.setFlagThenReg f x b).v = (s.v.set vf (flagByte f)).set x b := rfl
@[simp] theorem setFlagThenReg_i (s : State) (f : Bool) (x : Reg) (b : Byte) : (s.setFlagThenReg f x b).i = s.i := rfl
@[simp] theorem setFlagThenReg_pc (s : State) (f : Bool) (x : Reg) (b : Byte) : (s.setFlagThenReg f x b).pc = s.pc := rfl
@[simp] theorem setFlagThenReg_mem (s : State) (f : Bool) (x : Reg) (b : Byte) : (s.setFlagThenReg f x b).mem = s.mem := rfl
@[simp] theorem setFlagThenReg_stack (s : State) (f : Bool) (x : Reg) (b : Byte) : (s.setFlagThenReg f x b).stack = s.stack := rfl
@[simp] theorem setFlagThenReg_sp (s : State) (f : Bool) (x : Reg) (b : Byte) : (s.setFlagThenReg f x b).sp = s.sp := rfl
@[simp] theorem setFlagThenReg_fb (s : State) (f : Bool) (x : Reg) (b : Byte) : (s.setFlagThenReg f x b).fb = s.fb := rfl
@[simp] theorem setFlagThenReg_keys (s : State) (f : Bool) (x : Reg) (b : Byte) : (s.setFlagThenReg f x b).keys = s.keys := rfl
@[simp] theorem setFlagThenReg_dt (s : State) (f : Bool) (x : Reg) (b : Byte) : (s.setFlagThenReg f x b).dt = s.dt := rfl
@[simp] theorem setFlagThenReg_st (s : State) (f : Bool) (x : Reg) (b : Byte) : (s.setFlagThenReg f x b).st = s.st := rfl
@[simp] theorem setFlagThenReg_draw (s : State) (f : Bool) (x : Reg) (b : Byte) : (s.setFlagThenReg f x b).draw = s.draw := rfl
@[simp] theorem setFlagThenReg_run (s : State) (f : Bool) (x : Reg) (b : Byte) : (s.setFlagThenReg f x b).run = s.run := rfl
@[simp] theorem setFlagThenReg_fcause (s : State) (f : Bool) (x : Reg) (b : Byte) : (s.setFlagThenReg f x b).fcause = s.fcause := rfl
@[simp] theorem setFlagThenReg_fop (s : State) (f : Bool) (x : Reg) (b : Byte) : (s.setFlagThenReg f x b).fop = s.fop := rfl
@[simp] theorem setFlagThenReg_fpc (s : State) (f : Bool) (x : Reg) (b : Byte) : (s.setFlagThenReg f x b).fpc = s.fpc := rfl
@[simp] theorem setFlagThenReg_font (s : State) (f : Bool) (x : Reg) (b : Byte) : (s.setFlagThenReg f x b).font = s.font := rfl
@[simp] theorem setFlagThenReg_draws (s : State) (f : Bool) (x : Reg) (b : Byte) : (s.setFlagThenReg f x b).draws = s.draws := rfl
@[simp] theorem setFlagThenReg_inbox (s : State) (f : Bool) (x : Reg) (b : Byte) : (s.setFlagThenReg f x b).inbox = s.inbox := rfl
@[simp] theorem setFlagThenReg_readByte (s : State) (f : Bool) (x : Reg) (b : Byte) (c : Nat) : (s.setFlagThenReg f x b).readByte c = s.readByte c := rfl
@[simp] theorem setFlagThenReg_ea (s : State) (f : Bool) (x : Reg) (b : Byte) (c : Nat) : (s.setFlagThenReg f x b).ea c = s.ea c := rfl

/-! ### writeBytes -/

@[simp] theorem writeBytes_v (s : State) (a : Nat) (bs : List Byte) : (s.writeBytes a bs).v = s.v := rfl
@[simp] theorem writeBytes_i (s : State) (a : Nat) (bs : List Byte) : (s.writeBytes a bs).i = s.i := rfl
@[simp] theorem writeBytes_pc (s : State) (a : Nat) (bs : List Byte) : (s.writeBytes a bs).pc = s.pc := rfl
@[simp] theorem writeBytes_mem (s : State) (a : Nat) (bs : List Byte) : (s.writeBytes a bs).mem = Memory.writeBytes s.font s.mem a bs := rfl
@[simp] theorem writeBytes_stack (s : State) (a : Nat) (bs : List Byte) : (s.writeBytes a bs).stack = s.stack := rfl
@[simp] theorem writeBytes_sp (s : State) (a : Nat) (bs : List Byte) : (s.writeBytes a bs).sp = s.sp := rfl
@[simp] theorem writeBytes_fb (s : State) (a : Nat) (bs : List Byte) : (s.writeBytes a bs).fb = s.fb := rfl
@[simp] theorem writeBytes_keys (s : State) (a : Nat) (bs : List Byte) : (s.writeBytes a bs).keys = s.keys := rfl
@[simp] theorem writeBytes_dt (s : State) (a : Nat) (bs : List Byte) : (s.writeBytes a bs).dt = s.dt := rfl
@[simp] theorem writeBytes_st (s : State) (a : Nat) (bs : List Byte) : (s.writeBytes a bs).st = s.st := rfl
@[simp] theorem writeBytes_draw (s : State) (a : Nat) (bs : List Byte) : (s.writeBytes a bs).draw = s.draw := rfl
@[simp] theorem writeBytes_run (s : State) (a : Nat) (bs : List Byte) : (s.writeBytes a bs).run = s.run := rfl
@[simp] theorem writeBytes_fcause (s : State) (a : Nat) (bs : List Byte) : (s.writeBytes a bs).fcause = s.fcause := rfl
@[simp] theorem writeBytes_fop (s : State) (a : Nat) (bs : List Byte) : (s.writeBytes a bs).fop = s.fop := rfl
@[simp] theorem writeBytes_fpc (s : State) (a : Nat) (bs : List Byte) : (s.writeBytes a bs).fpc = s.fpc := rfl
@[simp] theorem writeBytes_font (s : State) (a : Nat) (bs : List Byte) : (s.writeBytes a bs).font = s.font := rfl
@[simp] theorem writeBytes_draws (s : State) (a : Nat) (bs : List Byte) : (s.writeBytes a bs).draws = s.draws := rfl
@[simp] theorem writeBytes_inbox (s : State) (a : Nat) (bs : List Byte) : (s.writeBytes a bs).inbox = s.inbox := rfl
@[simp] theorem writeBytes_reg (s : State) (a : Nat) (bs : List Byte) (q : Reg) : (s.writeBytes a bs).reg q = s.reg q := rfl
@[simp] theorem writeBytes_ea (s : State) (a : Nat) (bs : List Byte) (c : Nat) : (s.writeBytes a bs).ea c = s.ea c := rfl

/-! ### advance -/

@[simp] theorem advance_v (s : State) : (s.advance).v = s.v := rfl
@[simp] theorem advance_i (s : State) : (s.advance).i = s.i := rfl
@[simp] theorem advance_pc (s : State) : (s.advance).pc = s.pc + 2 := rfl
@[simp] theorem advance_mem (s : State) : (s.advance).mem = s.mem := rfl
@[simp] theorem advance_stack (s : State) : (s.advance).stack = s.stack := rfl
@[simp] theorem advance_sp (s : State) : (s.advance).sp = s.sp := rfl
@[simp] theorem advance_fb (s : State) : (s.advance).fb = s.fb := rfl
@[simp] theorem advance_keys (s : State) : (s.advance).keys = s.keys := rfl
@[simp] theorem advance_dt (s : State) : (s.advance).dt = s.dt := rfl
@[simp] theorem advance_st (s : State) : (s.advance).st = s.st := rfl
@[simp] theorem advance_draw (s : State) : (s.advance).draw = false := rfl
@[simp] theorem advance_run (s : State) : (s.advance).run = s.run := rfl
@[simp] theorem advance_fcause (s : State) : (s.advance).fcause = s.fcause := rfl
@[simp] theorem advance_fop (s : State) : (s.advance).fop = s.fop := rfl
@[simp] theorem advance_fpc (s : State) : (s.advance).fpc = s.fpc := rfl
@[simp] theorem advance_font (s : State) : (s.advance).font = s.font := rfl
@[simp] theorem advance_draws (s : State) : (s.advance).draws = s.draws := rfl
@[simp] theorem advance_inbox (s : State) : (s.advance).inbox = s.inbox := rfl
@[simp] theorem advance_reg (s : State) (q : Reg) : (s.advance).reg q = s.reg q := rfl
@[simp] theorem advance_readByte (s : State) (c : Nat) : (s.advance).readByte c = s.readByte c := rfl
@[simp] theorem advance_ea (s : State) (c : Nat) : (s.advance).ea c = s.ea c := rfl

/-! ### skip -/

@[simp] theorem skip_v (s : State) : (s.skip).v = s.v := rfl
@[simp] theorem skip_i (s : State) : (s.skip).i = s.i := rfl
@[simp] theorem skip_pc (s : State) : (s.skip).pc = s.pc + 2 := rfl
@[simp] theorem skip_mem (s : State) : (s.skip).mem = s.mem := rfl
@[simp] theorem skip_stack (s : State) : (s.skip).stack = s.stack := rfl
@[simp] theorem skip_sp (s : State) : (s.skip).sp = s.sp := rfl
@[simp] theorem skip_fb (s : State) : (s.skip).fb = s.fb := rfl
@[simp] theorem skip_keys (s : State) : (s.skip).keys = s.keys := rfl
@[simp] theorem skip_dt (s : State) : (s.skip).dt = s.dt := rfl
@[simp] theorem skip_st (s : State) : (s.skip).st = s.st := rfl
@[simp] theorem skip_draw (s : State) : (s.skip).draw = s.draw := rfl
@[simp] theorem skip_run (s : State) : (s.skip).run = s.run := rfl
@[simp] theorem skip_fcause (s : State) : (s.skip).fcause = s.fcause := rfl
@[simp] theorem skip_fop (s : State) : (s.skip).fop = s.fop := rfl
@[simp] theorem skip_fpc (s : State) : (s.skip).fpc = s.fpc := rfl
@[simp] theorem skip_font (s : State) : (s.skip).font = s.font := rfl
@[simp] theorem skip_draws (s : State) : (s.skip).draws = s.draws := rfl
@[simp] theorem skip_inbox (s : State) : (s.skip).inbox = s.inbox := rfl
@[simp] theorem skip_reg (s : State) (q : Reg) : (s.skip).reg q = s.reg q := rfl
@[simp] theorem skip_readByte (s : State) (c : Nat) : (s.skip).readByte c = s.readByte c := rfl
@[simp] theorem skip_ea (s : State) (c : Nat) : (s.skip).ea c = s.ea c := rfl

/-! ### latch -/

@[simp] theorem latch_v (s : State) (k : ErrorKind) (op addr : Word) : (s.latch k op addr).v = s.v := rfl
@[simp] theorem latch_i (s : State) (k : ErrorKind) (op addr : Word) : (s.latch k op addr).i = s.i := rfl
@[simp] theorem latch_pc (s : State) (k : ErrorKind) (op addr : Word) : (s.latch k op addr).pc = s.pc := rfl
@[simp] theorem latch_mem (s : State) (k : ErrorKind) (op addr : Word) : (s.latch k op addr).mem = s.mem := rfl
@[simp] theorem latch_stack (s : State) (k : ErrorKind) (op addr : Word) : (s.latch k op addr).stack = s.stack := rfl
@[simp] theorem latch_sp (s : State) (k : ErrorKind) (op addr : Word) : (s.latch k op addr).sp = s.sp := rfl
@[simp] theorem latch_fb (s : State) (k : ErrorKind) (op addr : Word) : (s.latch k op addr).fb = s.fb := rfl
@[simp] theorem latch_keys (s : State) (k : ErrorKind) (op addr : Word) : (s.latch k op addr).keys = s.keys := rfl
@[simp] theorem latch_dt (s : State) (k : ErrorKind) (op addr : Word) : (s.latch k op addr).dt = s.dt := rfl
@[simp] theorem latch_st (s : State) (k : ErrorKind) (op addr : Word) : (s.latch k op addr).st = s.st := rfl
@[simp] theorem latch_draw (s : State) (k : ErrorKind) (op addr : Word) : (s.latch k op addr).draw = s.draw := rfl
@[simp] theorem latch_run (s : State) (k : ErrorKind) (op addr : Word) : (s.latch k op addr).run = .faulted := rfl
@[simp] theorem latch_fcause (s : State) (k : ErrorKind) (op addr : Word) : (s.latch k op addr).fcause = some k := rfl
@[simp] theorem latch_fop (s : State) (k : ErrorKind) (op addr : Word) : (s.latch k op addr).fop = op := rfl
@[simp] theorem latch_fpc (s : State) (k : ErrorKind) (op addr : Word) : (s.latch k op addr).fpc = addr := rfl
@[simp] theorem latch_font (s : State) (k : ErrorKind) (op addr : Word) : (s.latch k op addr).font = s.font := rfl
@[simp] theorem latch_draws (s : State) (k : ErrorKind) (op addr : Word) : (s.latch k op addr).draws = s.draws := rfl
@[simp] theorem latch_inbox (s : State) (k : ErrorKind) (op addr : Word) : (s.latch k op addr).inbox = s.inbox := rfl
@[simp] theorem latch_reg (s : State) (k : ErrorKind) (op addr : Word) (q : Reg) : (s.latch k op addr).reg q = s.reg q := rfl
@[simp] theorem latch_readByte (s : State) (k : ErrorKind) (op addr : Word) (c : Nat) : (s.latch k op addr).readByte c = s.readByte c := rfl
@[simp] theorem latch_ea (s : State) (k : ErrorKind) (op addr : Word) (c : Nat) : (s.latch k op addr).ea c = s.ea c := rfl

/-! ### bumpIndex -/

@[simp] theorem bumpIndex_v (s : State) (x : Reg) : (s.bumpIndex x).v = s.v := rfl
@[simp] theorem bumpIndex_i (s : State) (x : Reg) : (s.bumpIndex x).i = s.i + BitVec.ofNat 16 (x.val + 1) := rfl
@[simp] theorem bumpIndex_pc (s : State) (x : Reg) : (s.bumpIndex x).pc = s.pc := rfl
@[simp] theorem bumpIndex_mem (s : State) (x : Reg) : (s.bumpIndex x).mem = s.mem := rfl
@[simp] theorem bumpIndex_stack (s : State) (x : Reg) : (s.bumpIndex x).stack = s.stack := rfl
@[simp] theorem bumpIndex_sp (s : State) (x : Reg) : (s.bumpIndex x).sp = s.sp := rfl
@[simp] theorem bumpIndex_fb (s : State) (x : Reg) : (s.bumpIndex x).fb = s.fb := rfl
@[simp] theorem bumpIndex_keys (s : State) (x : Reg) : (s.bumpIndex x).keys = s.keys := rfl
@[simp] theorem bumpIndex_dt (s : State) (x : Reg) : (s.bumpIndex x).dt = s.dt := rfl
@[simp] theorem bumpIndex_st (s : State) (x : Reg) : (s.bumpIndex x).st = s.st := rfl
@[simp] theorem bumpIndex_draw (s : State) (x : Reg) : (s.bumpIndex x).draw = s.draw := rfl
@[simp] theorem bumpIndex_run (s : State) (x : Reg) : (s.bumpIndex x).run = s.run := rfl
@[simp] theorem bumpIndex_fcause (s : State) (x : Reg) : (s.bumpIndex x).fcause = s.fcause := rfl
@[simp] theorem bumpIndex_fop (s : State) (x : Reg) : (s.bumpIndex x).fop = s.fop := rfl
@[simp] theorem bumpIndex_fpc (s : State) (x : Reg) : (s.bumpIndex x).fpc = s.fpc := rfl
@[simp] theorem bumpIndex_font (s : State) (x : Reg) : (s.bumpIndex x).font = s.font := rfl
@[simp] theorem bumpIndex_draws (s : State) (x : Reg) : (s.bumpIndex x).draws = s.draws := rfl
@[simp] theorem bumpIndex_inbox (s : State) (x : Reg) : (s.bumpIndex x).inbox = s.inbox := rfl
@[simp] theorem bumpIndex_reg (s : State) (x : Reg) (q : Reg) : (s.bumpIndex x).reg q = s.reg q := rfl
@[simp] theorem bumpIndex_readByte (s : State) (x : Reg) (c : Nat) : (s.bumpIndex x).readByte c = s.readByte c := rfl

/-! ### loadRegs -/

@[simp] theorem loadRegs_i (s : State) (x : Reg) : (s.loadRegs x).i = s.i := by dsimp only [loadRegs]
@[simp] theorem loadRegs_pc (s : State) (x : Reg) : (s.loadRegs x).pc = s.pc := by dsimp only [loadRegs]
@[simp] theorem loadRegs_mem (s : State) (x : Reg) : (s.loadRegs x).mem = s.mem := by dsimp only [loadRegs]
@[simp] theorem loadRegs_stack (s : State) (x : Reg) : (s.loadRegs x).stack = s.stack := by dsimp only [loadRegs]
@[simp] theorem loadRegs_sp (s : State) (x : Reg) : (s.loadRegs x).sp = s.sp := by dsimp only [loadRegs]
@[simp] theorem loadRegs_fb (s : State) (x : Reg) : (s.loadRegs x).fb = s.fb := by dsimp only [loadRegs]
@[simp] theorem loadRegs_keys (s : State) (x : Reg) : (s.loadRegs x).keys = s.keys := by dsimp only [loadRegs]
@[simp] theorem loadRegs_dt (s : State) (x : Reg) : (s.loadRegs x).dt = s.dt := by dsimp only [loadRegs]
@[simp] theorem loadRegs_st (s : State) (x : Reg) : (s.loadRegs x).st = s.st := by dsimp only [loadRegs]
@[simp] theorem loadRegs_draw (s : State) (x : Reg) : (s.loadRegs x).draw = s.draw := by dsimp only [loadRegs]
@[simp] theorem loadRegs_run (s : State) (x : Reg) : (s.loadRegs x).run = s.run := by dsimp only [loadRegs]
@[simp] theorem loadRegs_fcause (s : State) (x : Reg) : (s.loadRegs x).fcause = s.fcause := by dsimp only [loadRegs]
@[simp] theorem loadRegs_fop (s : State) (x : Reg) : (s.loadRegs x).fop = s.fop := by dsimp only [loadRegs]
@[simp] theorem loadRegs_fpc (s : State) (x : Reg) : (s.loadRegs x).fpc = s.fpc := by dsimp only [loadRegs]
@[simp] theorem loadRegs_font (s : State) (x : Reg) : (s.loadRegs x).font = s.font := by dsimp only [loadRegs]
@[simp] theorem loadRegs_draws (s : State) (x : Reg) : (s.loadRegs x).draws = s.draws := by dsimp only [loadRegs]
@[simp] theorem loadRegs_inbox (s : State) (x : Reg) : (s.loadRegs x).inbox = s.inbox := by dsimp only [loadRegs]
@[simp] theorem loadRegs_readByte (s : State) (x : Reg) (c : Nat) : (s.loadRegs x).readByte c = s.readByte c := by dsimp only [readByte, loadRegs]
@[simp] theorem loadRegs_ea (s : State) (x : Reg) (c : Nat) : (s.loadRegs x).ea c = s.ea c := by dsimp only [ea, loadRegs]

/-! ### setKey -/

@[simp] theorem setKey_v (s : State) (k : Fin 16) (p : Bool) : (s.setKey k p).v = s.v := rfl
@[simp] theorem setKey_i (s : State) (k : Fin 16) (p : Bool) : (s.setKey k p).i = s.i := rfl
@[simp] theorem setKey_pc (s : State) (k : Fin 16) (p : Bool) : (s.setKey k p).pc = s.pc := rfl
@[simp] theorem setKey_mem (s : State) (k : Fin 16) (p : Bool) : (s.setKey k p).mem = s.mem := rfl
@[simp] theorem setKey_stack (s : State) (k : Fin 16) (p : Bool) : (s.setKey k p).stack = s.stack := rfl
@[simp] theorem setKey_sp (s : State) (k : Fin 16) (p : Bool) : (s.setKey k p).sp = s.sp := rfl
@[simp] theorem setKey_fb (s : State) (k : Fin 16) (p : Bool) : (s.setKey k p).fb = s.fb := rfl
@[simp] theorem setKey_keys (s : State) (k : Fin 16) (p : Bool) : (s.setKey k p).keys = s.keys.set k p := rfl
@[simp] theorem setKey_dt (s : State) (k : Fin 16) (p : Bool) : (s.setKey k p).dt = s.dt := rfl
@[simp] theorem setKey_st (s : State) (k : Fin 16) (p : Bool) : (s.setKey k p).st = s.st := rfl
@[simp] theorem setKey_draw (s : State) (k : Fin 16) (p : Bool) : (s.setKey k p).draw = s.draw := rfl
@[simp] theorem setKey_run (s : State) (k : Fin 16) (p : Bool) : (s.setKey k p).run = s.run := rfl
@[simp] theorem setKey_fcause (s : State) (k : Fin 16) (p : Bool) : (s.setKey k p).fcause = s.fcause := rfl
@[simp] theorem setKey_fop (s : State) (k : Fin 16) (p : Bool) : (s.setKey k p).fop = s.fop := rfl
@[simp] theorem setKey_fpc (s : State) (k : Fin 16) (p : Bool) : (s.setKey k p).fpc = s.fpc := rfl
@[simp] theorem setKey_font (s : State) (k : Fin 16) (p : Bool) : (s.setKey k p).font = s.font := rfl
@[simp] theorem setKey_draws (s : State) (k : Fin 16) (p : Bool) : (s.setKey k p).draws = s.draws := rfl
@[simp] theorem setKey_inbox (s : State) (k : Fin 16) (p : Bool) : (s.setKey k p).inbox = s.inbox := rfl
@[simp] theorem setKey_reg (s : State) (k : Fin 16) (p : Bool) (q : Reg) : (s.setKey k p).reg q = s.reg q := rfl
@[simp] theorem setKey_readByte (s : State) (k : Fin 16) (p : Bool) (c : Nat) : (s.setKey k p).readByte c = s.readByte c := rfl
@[simp] theorem setKey_ea (s : State) (k : Fin 16) (p : Bool) (c : Nat) : (s.setKey k p).ea c = s.ea c := rfl

/-! ### What a register holds after an update of the registers -/

/-- Reading a register after writing one (R12). -/
theorem reg_setReg (s : State) (r q : Reg) (b : Byte) : (s.setReg r b).reg q = if q = r then b else s.reg q := by
  simp only [reg, setReg, Fin.getElem_fin, Vector.getElem_set, Fin.val_inj, eq_comm]

@[simp] theorem reg_setReg_same (s : State) (r : Reg) (b : Byte) : (s.setReg r b).reg r = b := by simp [reg_setReg]

@[simp] theorem reg_setReg_other (s : State) (r q : Reg) (b : Byte) (h : q ≠ r) : (s.setReg r b).reg q = s.reg q := by
  simp [reg_setReg, h]

/-- Reading a register after the flag is written. -/
theorem reg_setFlag (s : State) (f : Bool) (q : Reg) :
    (s.setFlag f).reg q = if q = vf then flagByte f else s.reg q := reg_setReg s vf q (flagByte f)

/-- The flag first, the result second: with x = F the result stands (R104). -/
theorem reg_setFlagThenReg (s : State) (f : Bool) (x q : Reg) (b : Byte) :
    (s.setFlagThenReg f x b).reg q = if q = x then b else if q = vf then flagByte f else s.reg q := by
  rw [setFlagThenReg, reg_setReg, reg_setFlag]

/-- Fx65 writes exactly the registers 0..x (R165). -/
theorem reg_loadRegs (s : State) (x q : Reg) :
    (s.loadRegs x).reg q = if q ≤ x then s.readByte (s.ea q.val) else s.reg q := by
  simp [reg, loadRegs]

/-- The bytes Fx55 stores: the k-th is V[k] (R164). -/
theorem getElem_regsUpTo (s : State) (x : Reg) (k : Nat) (h : k < (s.regsUpTo x).length) :
    (s.regsUpTo x)[k] = s.reg (Fin.ofNat 16 k) := by
  simp [regsUpTo]

@[simp] theorem length_regsUpTo (s : State) (x : Reg) : (s.regsUpTo x).length = x.val + 1 := by simp [regsUpTo]

/-- A block of k + 1 cells is in range exactly when its highest address is (R60). -/
theorem blockInRange_succ (s : State) (k : Nat) : s.blockInRange (k + 1) = decide (s.ea k ≤ 4095) := by
  have h : s.ea (k + 1) = s.ea k + 1 := rfl
  rw [blockInRange, h, decide_eq_false (Nat.succ_ne_zero k), Bool.false_or]
  exact decide_eq_decide.2 Nat.succ_le_succ_iff

/-- A block of no cells is in range whatever I is (R60). -/
@[simp] theorem blockInRange_zero (s : State) : s.blockInRange 0 = true := rfl

/-- Reading a key flag after one is written. -/
theorem keys_setKey (s : State) (k j : Fin 16) (p : Bool) :
    (s.setKey k p).keys[j] = if j = k then p else s.keys[j] := by
  simp only [setKey, Fin.getElem_fin, Vector.getElem_set, Fin.val_inj, eq_comm]

end Sys2Proof.Machine.State
end

