-- ==== Sys2Proof/Laws/Frames.lean ====
section
/-! SUPPORT. Once per shared operation: everything it can change. -/

namespace Sys2Proof.Machine

/-- A state keeps itself. -/
theorem Keeps.refl (w : Writes) (s : State) : Keeps w s s := by
  constructor <;> intros <;> first | rfl | exact ⟨rfl, rfl, rfl⟩

/-! ### Registers -/

theorem keeps_setReg (s : State) (r : Reg) (b : Byte) : Keeps { regs := [r] } s (s.setReg r b) := by
  refine ⟨fun q hq => ?_, ?_, ?_, ?_, ?_, ?_, ?_, ?_, ?_, ?_, ?_, ?_, ?_, ?_, ?_, ?_⟩
  · rw [State.reg_setReg, if_neg (by simpa using hq)]
  all_goals intros; simp

theorem keeps_setFlag (s : State) (f : Bool) : Keeps { regs := [vf] } s (s.setFlag f) := keeps_setReg s vf (flagByte f)

theorem keeps_setFlagThenReg (s : State) (f : Bool) (x : Reg) (b : Byte) :
    Keeps { regs := [x, vf] } s (s.setFlagThenReg f x b) := by
  refine ⟨fun q hq => ?_, ?_, ?_, ?_, ?_, ?_, ?_, ?_, ?_, ?_, ?_, ?_, ?_, ?_, ?_, ?_⟩
  · have hq : q ≠ x ∧ q ≠ vf := by simpa using hq
    rw [State.reg_setFlagThenReg, if_neg hq.1, if_neg hq.2]
  all_goals intros; simp

/-- A flag is read back as 0 or 1 (R21). -/
theorem flagByte_toNat (f : Bool) : (flagByte f).toNat = if f then 1 else 0 := by cases f <;> rfl

/-! ### pc and the draw flag -/

theorem keeps_setPc (s : State) (a : Word) : Keeps { pc := true } s { s with pc := a } := by
  constructor <;> intros <;> first | rfl | exact ⟨rfl, rfl, rfl⟩ | contradiction

/-- A skip that may or may not happen writes pc only, and says which value (R15, R111). -/
theorem skipIf_answers (c : Bool) (s : State) :
    ∃ t, skipIf c s = .next t ∧ t.pc.toNat = (if c then (s.pc.toNat + 2) % 65536 else s.pc.toNat) ∧
      Keeps { pc := true } s t := by
  cases c
  · exact ⟨s, rfl, rfl, Keeps.refl _ s⟩
  · exact ⟨s.skip, rfl, by simp [BitVec.toNat_add], keeps_setPc s (s.pc + 2)⟩

/-! ### Faults -/

/-- Latching a fault writes the record and the run state, and nothing else (R253). -/
theorem raised_latch (s : State) (k : ErrorKind) (op addr : Word) : Raised k op addr s (s.latch k op addr) := by
  refine ⟨rfl, rfl, rfl, rfl, ?_⟩
  constructor <;> intros <;> first | rfl | contradiction

/-- raise answers a next state with the fault latched (R253). -/
theorem raise_answers (k : ErrorKind) (op addr : Word) (s : State) :
    ∃ t, raise k op addr s = .next t ∧ Raised k op addr s t := ⟨_, rfl, raised_latch s k op addr⟩

/-- A fault in the execute part records the instruction's word and the address two below pc (R103, R252). -/
theorem raiseAt_answers (i : Instr) (k : ErrorKind) (s : State) :
    ∃ t, raiseAt i k s = .next t ∧ Raised k (encode i) (s.pc - 2) s t := raise_answers k (encode i) (s.pc - 2) s

/-! ### Memory -/

/-- Bytes written inside memory are read back, and no other cell changes (R53, R56). -/
theorem readByte_writeBytes (s : State) (a x : Nat) (bs : List Byte) (hm : s.memCanonical)
    (ha : a + bs.length ≤ Config.memSize) :
    (s.writeBytes a bs).readByte x = if h : a ≤ x ∧ x - a < bs.length then bs[x - a] else s.readByte x :=
  Memory.read_writeBytes s.font s.mem a x bs hm ha

/-- Writing bytes keeps everything but the cells written. -/
theorem keeps_writeBytes (s : State) (a : Nat) (bs : List Byte) (hm : s.memCanonical)
    (ha : a + bs.length ≤ Config.memSize) :
    Keeps { cells := (List.range bs.length).map (a + ·) } s (s.writeBytes a bs) := by
  refine ⟨?_, fun x hx => ?_, ?_, ?_, ?_, ?_, ?_, ?_, ?_, ?_, ?_, ?_, ?_, ?_, ?_, ?_⟩
  · intros; simp
  · rw [readByte_writeBytes s a x bs hm ha, dif_neg]
    rintro ⟨h1, h2⟩
    exact hx (List.mem_map.2 ⟨x - a, List.mem_range.2 h2, by omega⟩)
  all_goals intros; simp

/-- Writing bytes keeps the canonical form. -/
theorem memCanonical_writeBytes (s : State) (a : Nat) (bs : List Byte) (hm : s.memCanonical) :
    (s.writeBytes a bs).memCanonical := Memory.wf_writeBytes s.font s.mem a bs hm

/-- LOAD leaves memory canonical. -/
theorem memCanonical_loaded (s : State) (img : List Byte) : (s.loaded img).memCanonical :=
  Memory.wf_writeBytes s.font [] Config.progBase img (Memory.wf_nil s.font)

end Sys2Proof.Machine
end

