-- ==== Sys2Proof/Laws/PerInstr.lean ====
section
/-! SUPPORT. Per instruction: decoding its own word gives it back (spec 30_encoding R84, R85). -/

/-- Decoding the word of a well-formed instruction gives the instruction. -/
def Sys2Proof.Laws.RoundTrip.Statement (i : Sys2Proof.Instr) : Prop :=
  i.wellFormed = true → Sys2Proof.decodeWord (Sys2Proof.encode i) = some i

namespace Sys2Proof.Laws.RoundTrip

theorem cls : Statement .cls := fun _ => rfl

theorem ret : Statement .ret := fun _ => rfl

theorem jp (nnn : Addr) : Statement (.jp nnn) := fun _ => by
  simp [encode, decodeWord]

theorem call (nnn : Addr) : Statement (.call nnn) := fun _ => by
  simp [encode, decodeWord]

theorem seImm (x : Reg) (nn : Byte) : Statement (.seImm x nn) := fun _ => by
  simp [encode, decodeWord]

theorem sneImm (x : Reg) (nn : Byte) : Statement (.sneImm x nn) := fun _ => by
  simp [encode, decodeWord]

theorem seReg (x y : Reg) : Statement (.seReg x y) := fun _ => by
  simp [encode, decodeWord]

theorem ldImm (x : Reg) (nn : Byte) : Statement (.ldImm x nn) := fun _ => by
  simp [encode, decodeWord]

theorem addImm (x : Reg) (nn : Byte) : Statement (.addImm x nn) := fun _ => by
  simp [encode, decodeWord]

theorem ldReg (x y : Reg) : Statement (.ldReg x y) := fun _ => by
  simp [encode, decodeWord, decodeAlu]

theorem orReg (x y : Reg) : Statement (.orReg x y) := fun _ => by
  simp [encode, decodeWord, decodeAlu]

theorem andReg (x y : Reg) : Statement (.andReg x y) := fun _ => by
  simp [encode, decodeWord, decodeAlu]

theorem xorReg (x y : Reg) : Statement (.xorReg x y) := fun _ => by
  simp [encode, decodeWord, decodeAlu]

theorem addReg (x y : Reg) : Statement (.addReg x y) := fun _ => by
  simp [encode, decodeWord, decodeAlu]

theorem subReg (x y : Reg) : Statement (.subReg x y) := fun _ => by
  simp [encode, decodeWord, decodeAlu]

theorem shr (x y : Reg) : Statement (.shr x y) := fun _ => by
  simp [encode, decodeWord, decodeAlu]

theorem subnReg (x y : Reg) : Statement (.subnReg x y) := fun _ => by
  simp [encode, decodeWord, decodeAlu]

theorem shl (x y : Reg) : Statement (.shl x y) := fun _ => by
  simp [encode, decodeWord, decodeAlu]

theorem sneReg (x y : Reg) : Statement (.sneReg x y) := fun _ => by
  simp [encode, decodeWord]

theorem ldI (nnn : Addr) : Statement (.ldI nnn) := fun _ => by
  simp [encode, decodeWord]

theorem jpV0 (nnn : Addr) : Statement (.jpV0 nnn) := fun _ => by
  simp [encode, decodeWord]

theorem rnd (x : Reg) (nn : Byte) : Statement (.rnd x nn) := fun _ => by
  simp [encode, decodeWord]

theorem drw (x y : Reg) (n : Nat) : Statement (.drw x y n) := fun h => by
  have hn : n ≤ 15 := by simpa [Instr.wellFormed] using h
  simp [encode, decodeWord, Nat.mod_eq_of_lt (show n < 16 by omega)]

theorem skp (x : Reg) : Statement (.skp x) := fun _ => by
  simp [encode, decodeWord, decodeKey]

theorem sknp (x : Reg) : Statement (.sknp x) := fun _ => by
  simp [encode, decodeWord, decodeKey]

theorem ldVxDt (x : Reg) : Statement (.ldVxDt x) := fun _ => by
  simp [encode, decodeWord, decodeMisc]

theorem ldVxK (x : Reg) : Statement (.ldVxK x) := fun _ => by
  simp [encode, decodeWord, decodeMisc]

theorem ldDtVx (x : Reg) : Statement (.ldDtVx x) := fun _ => by
  simp [encode, decodeWord, decodeMisc]

theorem ldStVx (x : Reg) : Statement (.ldStVx x) := fun _ => by
  simp [encode, decodeWord, decodeMisc]

theorem addI (x : Reg) : Statement (.addI x) := fun _ => by
  simp [encode, decodeWord, decodeMisc]

theorem ldF (x : Reg) : Statement (.ldF x) := fun _ => by
  simp [encode, decodeWord, decodeMisc]

theorem ldB (x : Reg) : Statement (.ldB x) := fun _ => by
  simp [encode, decodeWord, decodeMisc]

theorem storeRegs (x : Reg) : Statement (.storeRegs x) := fun _ => by
  simp [encode, decodeWord, decodeMisc]

theorem loadRegs (x : Reg) : Statement (.loadRegs x) := fun _ => by
  simp [encode, decodeWord, decodeMisc]

end Sys2Proof.Laws.RoundTrip
end

