-- ==== Sys2Proof/Laws/Steps.lean ====
section
/-! SUPPORT. Once for all instructions and once for the step: every way they can answer, so that a proof about every
step unfolds neither. -/

namespace Sys2Proof.Machine

open Host

/-! ### Instructions -/

/-- A skip answers the state itself or the state skipped. -/
theorem skipIf_next (c : Bool) (s : State) : skipIf c s = .next (if c then s.skip else s) := rfl

/-- A meaning either raises a kind other than RegisterOutOfBounds, or answers a state whose record is the old one and
whose run state is the old one or a key wait. -/
theorem exec_answers (i : Instr) (s : State) :
    (∃ k, k ≠ .registerOutOfBounds ∧ exec i s = raiseAt i k s) ∨
    ∃ t, exec i s = .next t ∧ (t.run = s.run ∨ ∃ x, t.run = .awaitingKey x) ∧
      t.fcause = s.fcause ∧ t.fop = s.fop ∧ t.fpc = s.fpc := by
  cases i
  case ret =>
    simp only [exec, execRet]
    by_cases h : s.sp.val = 0
    · left
      rw [(State.pop_eq_none s).2 h]
      exact ⟨_, by decide, rfl⟩
    · right
      rw [State.pop_of_pos s h]
      exact ⟨_, rfl, .inl rfl, rfl, rfl, rfl⟩
  case call nnn =>
    simp only [exec, execCall]
    by_cases h : s.sp.val = 16
    · left
      rw [(State.push_eq_none s _).2 h]
      exact ⟨_, by decide, rfl⟩
    · right
      rw [State.push_of_lt s _ (by omega)]
      exact ⟨_, rfl, .inl rfl, rfl, rfl, rfl⟩
  case drw x y n =>
    simp only [exec, execDrw]
    cases s.blockInRange n
    · exact .inl ⟨_, by decide, rfl⟩
    · exact .inr ⟨_, rfl, .inl rfl, rfl, rfl, rfl⟩
  case ldB x =>
    simp only [exec, execLdB]
    cases s.blockInRange 3
    · exact .inl ⟨_, by decide, rfl⟩
    · exact .inr ⟨_, rfl, .inl rfl, rfl, rfl, rfl⟩
  case storeRegs x =>
    simp only [exec, execStoreRegs]
    cases s.blockInRange (x.val + 1)
    · exact .inl ⟨_, by decide, rfl⟩
    · exact .inr ⟨_, rfl, .inl rfl, rfl, rfl, rfl⟩
  case loadRegs x =>
    simp only [exec, execLoadRegs]
    cases s.blockInRange (x.val + 1)
    · exact .inl ⟨_, by decide, rfl⟩
    · exact .inr ⟨(s.loadRegs x).bumpIndex x, rfl, .inl (by simp), by simp, by simp, by simp⟩
  case skp x =>
    simp only [exec, execSkp]
    cases s.keyFlag (s.reg x) with
    | none => exact .inl ⟨_, by decide, rfl⟩
    | some p => cases p <;> exact .inr ⟨_, rfl, .inl rfl, rfl, rfl, rfl⟩
  case sknp x =>
    simp only [exec, execSknp]
    cases s.keyFlag (s.reg x) with
    | none => exact .inl ⟨_, by decide, rfl⟩
    | some p => cases p <;> exact .inr ⟨_, rfl, .inl rfl, rfl, rfl, rfl⟩
  case ldVxK x => exact .inr ⟨_, rfl, .inr ⟨x, rfl⟩, rfl, rfl, rfl⟩
  case seImm x nn =>
    simp only [exec, execSeImm, skipIf]
    right
    split <;> exact ⟨_, rfl, .inl rfl, rfl, rfl, rfl⟩
  case sneImm x nn =>
    simp only [exec, execSneImm, skipIf]
    right
    split <;> exact ⟨_, rfl, .inl rfl, rfl, rfl, rfl⟩
  case seReg x y =>
    simp only [exec, execSeReg, skipIf]
    right
    split <;> exact ⟨_, rfl, .inl rfl, rfl, rfl, rfl⟩
  case sneReg x y =>
    simp only [exec, execSneReg, skipIf]
    right
    split <;> exact ⟨_, rfl, .inl rfl, rfl, rfl, rfl⟩
  all_goals exact .inr ⟨_, rfl, .inl rfl, rfl, rfl, rfl⟩

/-- Every meaning answers a next state. -/
theorem exec_next (i : Instr) (s : State) : ∃ t, exec i s = .next t := by
  rcases exec_answers i s with ⟨_, _, h⟩ | ⟨_, h, _⟩ <;> exact ⟨_, h⟩

/-- No meaning writes memory but through writeBytes, and none changes FONT or the operations that wait. -/
theorem exec_memory (i : Instr) (s t : State) (h : exec i s = .next t) :
    (t.mem = s.mem ∨ ∃ a bs, t.mem = (s.writeBytes a bs).mem) ∧ t.font = s.font ∧ t.inbox = s.inbox := by
  rcases i <;> simp only [exec, execRet, execCall, execDrw, execLdB, execStoreRegs, execLoadRegs, execSkp, execSknp,
    raiseAt, raise, execSeImm, execSneImm, execSeReg, execSneReg, skipIf] at h
  case ret =>
    by_cases hs : s.sp.val = 0
    · rw [(State.pop_eq_none s).2 hs] at h
      cases h
      exact ⟨.inl rfl, rfl, rfl⟩
    · rw [State.pop_of_pos s hs] at h
      cases h
      exact ⟨.inl rfl, rfl, rfl⟩
  case call =>
    by_cases hs : s.sp.val = 16
    · rw [(State.push_eq_none s _).2 hs] at h
      cases h
      exact ⟨.inl rfl, rfl, rfl⟩
    · rw [State.push_of_lt s _ (by omega)] at h
      cases h
      exact ⟨.inl rfl, rfl, rfl⟩
  case ldB =>
    split at h <;> cases h
    · exact ⟨.inr ⟨_, _, rfl⟩, rfl, rfl⟩
    · exact ⟨.inl rfl, rfl, rfl⟩
  case storeRegs =>
    split at h <;> cases h
    · exact ⟨.inr ⟨_, _, rfl⟩, rfl, rfl⟩
    · exact ⟨.inl rfl, rfl, rfl⟩
  case loadRegs =>
    split at h <;> cases h
    · exact ⟨.inl (by simp), by simp, by simp⟩
    · exact ⟨.inl rfl, rfl, rfl⟩
  all_goals
    repeat' split at h
    all_goals (cases h; exact ⟨.inl rfl, rfl, rfl⟩)

/-! ### The step -/

/-- When TICK is next, a step is that TICK. -/
theorem step_of_ticksNext (s u : State) (h : s.ticksNext u) : step s = tick u := by
  rcases h with ⟨h, rfl⟩ | ⟨r, h, rfl⟩ <;> simp [step, serve, h, perform]

/-- The state a TICK finds differs from the state before in the operations that wait, and in nothing else. -/
theorem ticksNext_fields (s u : State) (h : s.ticksNext u) :
    u.run = s.run ∧ u.pc = s.pc ∧ u.draw = s.draw ∧ (∀ a, u.readByte a = s.readByte a) ∧ u.fetchWord = s.fetchWord ∧
      u.fetchOutOfRange = s.fetchOutOfRange := by
  rcases h with ⟨_, rfl⟩ | ⟨r, _, rfl⟩ <;> exact ⟨rfl, rfl, rfl, fun _ => rfl, rfl, rfl⟩

/-- A successful LOAD and a failed one, by the image. -/
theorem load_answers (img : Option (List Byte)) (s : State) :
    (∃ bytes, img = some bytes ∧ bytes.length ≤ 3584 ∧ load img s = .next (s.loaded bytes)) ∨
    ((¬ ∃ bytes, img = some bytes ∧ bytes.length ≤ 3584) ∧ load img s = .next (s.latch .invalidProgram 0 0)) := by
  cases img with
  | none => exact .inr ⟨by simp, rfl⟩
  | some bytes =>
    by_cases h : bytes.length ≤ 3584
    · exact .inl ⟨bytes, rfl, h, by simp [load, Config.progMax, h]⟩
    · exact .inr ⟨by simpa using h, by simp [load, Config.progMax, h, raise]⟩

/-- A property that serving an operation, executing, raising a fault, loading, a key event and a timer tick each keep is
kept by every step. -/
theorem step_preserves (Q : State → Prop)
    (served : ∀ s l, Q s → Q { s with inbox := l })
    (executed : ∀ i s t, Q s → s.run = .running → s.pc.toNat ≤ 4094 → exec i s.advance = .next t → Q t)
    (latched : ∀ s k op a, Q s → k ≠ .registerOutOfBounds → Q (s.latch k op a))
    (advancedLatched : ∀ s op a, Q s → Q (s.advance.latch .unknownOpcode op a))
    (loaded : ∀ s bytes, Q s → Q (s.loaded bytes))
    (keyed : ∀ s k p, Q s → Q (s.keyEvent k p))
    (timed : ∀ s, Q s → Q s.timerTick) : ∀ s t, Q s → step s = .next t → Q t := by
  have ticked : ∀ s t, Q s → tick s = .next t → Q t := by
    intro s t hq ht
    unfold tick at ht
    split at ht
    · cases ht
    · cases ht
      exact hq
    · cases ht
      exact hq
    · unfold runCycle at ht
      split at ht
      · cases ht
        exact latched _ _ _ _ hq (by decide)
      · rename_i hr hn
        split at ht
        · cases ht
          exact advancedLatched _ _ _ hq
        · exact executed _ _ _ hq hr (by simpa [State.fetchOutOfRange] using hn) ht
  intro s t hq ht
  unfold step serve at ht
  split at ht
  · exact ticked _ _ hq ht
  · rename_i op rest _
    have hq' := served s rest hq
    cases op with
    | load img =>
      rcases load_answers img { s with inbox := rest } with ⟨b, _, _, h⟩ | ⟨_, h⟩
      · rw [perform, h] at ht
        cases ht
        exact loaded _ _ hq'
      · rw [perform, h] at ht
        cases ht
        exact latched _ _ _ _ hq' (by decide)
    | timer =>
      cases ht
      exact timed _ hq'
    | tick => exact ticked _ _ hq' ht
    | key k p =>
      unfold perform key at ht
      simp only at ht
      repeat' split at ht
      · cases ht
        exact keyed _ _ _ hq'
      · cases ht
        exact hq'
      · cases ht
        exact hq'
      · cases ht
        exact latched _ _ _ _ hq' (by decide)
      · cases ht
        exact latched _ _ _ _ hq' (by decide)

end Sys2Proof.Machine
end

