-- ==== Sys2Proof/Tests/Slice0.lean ====
section
/-! SUPPORT. Tests: words written out from the patterns of 30_encoding R84, the vectors of 95_test_vectors, and for every
obligation with hypotheses a state and operands that meet them. -/

namespace Sys2Proof.Tests

open Sys2Proof Sys2Proof.Machine

/-! ### Helpers -/

/-- The state after reset with some registers set. -/
def withRegs (l : List (Reg × Byte)) : State := l.foldl (fun s p => s.setReg p.1 p.2) State.reset

/-- What f reads after one step that runs the word w. -/
def after {α : Type} (w : Nat) (s : State) (f : State → α) : Option α :=
  match step (s.withFetchWord 16 w) with
  | .next t => some (f t)
  | .fault _ => none
  | .refused _ => none

/-- The fault record and pc. -/
def record (s : State) : Option ErrorKind × Word × Word × Word := (s.fcause, s.fop, s.fpc, s.pc)

/-- What f reads after one operation. -/
def afterOp {α : Type} (op : HostOp) (s : State) (f : State → α) : Option α :=
  match perform op s with
  | .next t => some (f t)
  | .fault _ => none
  | .refused _ => none

/-! ### Well-formedness (30_encoding R81) -/

theorem test_wellFormed_refuses_sixteen_rows : (Instr.drw 0 0 16).wellFormed = false := by decide
theorem test_wellFormed_fifteen_rows : (Instr.drw 15 15 15).wellFormed = true := by decide

/-! ### Decoding, by words written out from the patterns of R84 -/

theorem test_decode_control :
    [0x00E0, 0x00EE, 0x1204, 0x2FFF, 0x31A5, 0x4207, 0x5340, 0x9AB0, 0xB300].map (decodeTableWord 16) =
      [some .cls, some .ret, some (.jp 0x204), some (.call 0xFFF), some (.seImm 1 0xA5), some (.sneImm 2 7),
       some (.seReg 3 4), some (.sneReg 10 11), some (.jpV0 0x300)] := by decide
theorem test_decode_alu :
    [0x6A05, 0x7A0A, 0x8120, 0x8341, 0x8562, 0x8783, 0x89A4, 0x8BC5, 0x8DE6, 0x8F07, 0x812E, 0xC30F].map
        (decodeTableWord 16) =
      [some (.ldImm 10 5), some (.addImm 10 10), some (.ldReg 1 2), some (.orReg 3 4), some (.andReg 5 6),
       some (.xorReg 7 8), some (.addReg 9 10), some (.subReg 11 12), some (.shr 13 14), some (.subnReg 15 0),
       some (.shl 1 2), some (.rnd 3 0x0F)] := by decide
theorem test_decode_rest :
    [0xA123, 0xD125, 0xE49E, 0xE5A1, 0xF607, 0xF70A, 0xF815, 0xF918, 0xFA1E, 0xFB29, 0xFC33, 0xFD55, 0xFE65].map
        (decodeTableWord 16) =
      [some (.ldI 0x123), some (.drw 1 2 5), some (.skp 4), some (.sknp 5), some (.ldVxDt 6), some (.ldVxK 7),
       some (.ldDtVx 8), some (.ldStVx 9), some (.addI 10), some (.ldF 11), some (.ldB 12), some (.storeRegs 13),
       some (.loadRegs 14)] := by decide
/-- R86: 0nnn, 5xy1, 8xy8, 9xy1, Ex9F, FxFF are illegal (TC22 to TC26). -/
theorem test_decode_illegal :
    [0x0000, 0x00E1, 0x5341, 0x8008, 0x800F, 0x9001, 0xE09F, 0xF000, 0xFFFF].map (decodeTableWord 16) =
      [none, none, none, none, none, none, none, none, none] := by decide
theorem test_decode_truncated : decode [0x12] = .error .truncated := by decide
theorem test_encode_big_endian : encodeBytes (.drw 1 2 5) = [0xD1, 0x25] := by decide

/-! ### Registers and arithmetic (vectors TA) -/

theorem test_ldImm : after 0x6A05 State.reset (fun t => (t.reg 10, t.reg vf, t.pc)) = some (5, 0, 0x202) := by decide
theorem test_addImm_wraps : after 0x7001 (withRegs [(0, 0xFF)]) (fun t => (t.reg 0, t.reg vf)) = some (0, 0) := by decide
theorem test_ldReg : after 0x8010 (withRegs [(1, 0x33)]) (fun t => (t.reg 0, t.reg 1)) = some (0x33, 0x33) := by decide
theorem test_or_keeps_flag :
    after 0x8011 (withRegs [(0, 0xF0), (1, 0x0F), (15, 7)]) (fun t => (t.reg 0, t.reg vf)) = some (0xFF, 7) := by decide
theorem test_and : after 0x8012 (withRegs [(0, 0xF0), (1, 0x3C)]) (·.reg 0) = some 0x30 := by decide
theorem test_xor : after 0x8013 (withRegs [(0, 0xF0), (1, 0x3C)]) (·.reg 0) = some 0xCC := by decide
theorem test_add_carry :
    after 0x8014 (withRegs [(0, 0xFF), (1, 1)]) (fun t => (t.reg 0, t.reg vf)) = some (0, 1) := by decide
theorem test_add_into_vf : after 0x8F14 (withRegs [(15, 0xF0), (1, 0x20)]) (·.reg vf) = some 0x10 := by decide
theorem test_sub_borrow :
    after 0x8015 (withRegs [(0, 1), (1, 2)]) (fun t => (t.reg 0, t.reg vf)) = some (0xFF, 0) := by decide
theorem test_sub_equal :
    after 0x8015 (withRegs [(0, 5), (1, 5)]) (fun t => (t.reg 0, t.reg vf)) = some (0, 1) := by decide
theorem test_shr_ignores_y :
    after 0x80A6 (withRegs [(0, 5), (10, 0xFF)]) (fun t => (t.reg 0, t.reg vf, t.reg 10)) = some (2, 1, 0xFF) := by decide
theorem test_subn_borrow :
    after 0x8017 (withRegs [(0, 2), (1, 1)]) (fun t => (t.reg 0, t.reg vf)) = some (0xFF, 0) := by decide
theorem test_shl : after 0x800E (withRegs [(0, 0x81)]) (fun t => (t.reg 0, t.reg vf)) = some (2, 1) := by decide
theorem test_shl_vf : after 0x8FFE (withRegs [(15, 0xFF)]) (·.reg vf) = some 0xFE := by decide
theorem test_rnd_consumes_one : after 0xC30F State.reset (fun t => (t.draws, t.pc)) = some (1, 0x202) := by decide
/-- The free byte, masked; no value of it is known (log 3). -/
theorem test_rnd_masks : after 0xC30F State.reset (·.reg 3) = some (Config.randomByte 0 &&& 0x0F) := by rfl

/-! ### Control (vectors TC) -/

theorem test_jp : after 0x1FFF State.reset (·.pc) = some 0xFFF := by decide
theorem test_jpV0_no_wrap : after 0xBFFF (withRegs [(0, 0xFF)]) (·.pc) = some 0x10FE := by decide
theorem test_seImm_skips : after 0x3100 { State.reset with pc := 0x208 } (·.pc) = some 0x20C := by decide
theorem test_seImm_past_end : after 0x3000 { State.reset with pc := 0xFFE } (·.pc) = some 0x1002 := by decide
theorem test_sneImm_skips : after 0x4208 (withRegs [(2, 7)]) (·.pc) = some 0x204 := by decide
theorem test_sneImm_equal : after 0x4207 (withRegs [(2, 7)]) (·.pc) = some 0x202 := by decide
theorem test_seReg_skips : after 0x5340 (withRegs [(3, 9), (4, 9)]) (·.pc) = some 0x204 := by decide
theorem test_sneReg_skips : after 0x9340 (withRegs [(3, 9), (4, 8)]) (·.pc) = some 0x204 := by decide
theorem test_call :
    after 0x2210 { State.reset with pc := 0x204 } (fun t => (t.pc, t.sp, t.stack[0])) = some (0x210, 1, 0x206) := by decide
theorem test_call_overflow :
    after 0x2222 { State.reset with pc := 0x220, sp := 16 } (fun t => (record t, t.sp, t.run)) =
      some ((some .stackOverflow, 0x2222, 0x220, 0x222), 16, .faulted) := by decide
theorem test_ret :
    after 0x00EE { State.reset with sp := 1, stack := State.reset.stack.set 0 0x206 }
      (fun t => (t.pc, t.sp, t.stack[0])) = some (0x206, 0, 0x206) := by decide
theorem test_ret_underflow :
    after 0x00EE State.reset (fun t => (record t, t.run)) =
      some ((some .stackUnderflow, 0x00EE, 0x200, 0x202), .faulted) := by decide
theorem test_illegal :
    after 0xFFFF State.reset (fun t => (record t, t.run)) =
      some ((some .unknownOpcode, 0xFFFF, 0x200, 0x202), .faulted) := by decide
theorem test_fetch_fault :
    afterOp .tick { State.reset with pc := 0xFFF, draw := true } (fun t => (record t, t.draw)) =
      some ((some .memoryOutOfBounds, 0, 0xFFF, 0xFFF), true) := by decide

/-! ### Index and memory (vectors TM) -/

theorem test_ldI : after 0xA300 State.reset (·.i) = some 0x300 := by decide
theorem test_addI_wraps :
    after 0xF01E { withRegs [(0, 1)] with i := 0xFFFF } (fun t => (t.i, t.reg vf)) = some (0, 1) := by decide
theorem test_addI_vf :
    after 0xFF1E { withRegs [(15, 7)] with i := 0x100 } (fun t => (t.i, t.reg vf)) = some (0x107, 0) := by decide
theorem test_ldF_whole_byte : after 0xF229 (withRegs [(2, 0xFF)]) (·.i) = some 0x4FB := by decide
theorem test_bcd :
    after 0xF033 { withRegs [(0, 254)] with i := 0x300 }
      (fun t => ([0x300, 0x301, 0x302].map t.readByte, t.i)) = some ([2, 5, 4], 0x300) := by decide
theorem test_bcd_out_of_range :
    after 0xF033 { withRegs [(0, 7)] with i := 0xFFE } (fun t => (record t, t.readByte 0xFFE, t.readByte 0xFFF)) =
      some ((some .memoryOutOfBounds, 0xF033, 0x200, 0x202), 0, 0) := by decide
theorem test_store :
    after 0xF255 { withRegs [(0, 1), (1, 2), (2, 3)] with i := 0x400 }
      (fun t => ([0x400, 0x401, 0x402, 0x403].map t.readByte, t.i)) = some ([1, 2, 3, 0], 0x403) := by decide
theorem test_store_out_of_range :
    after 0xF155 { withRegs [(0, 1), (1, 2)] with i := 0xFFF }
      (fun t => (record t, t.readByte 0xFFF, t.readByte 0, t.i)) =
      some ((some .memoryOutOfBounds, 0xF155, 0x200, 0x202), 0, 0xF0, 0xFFF) := by decide
theorem test_load :
    after 0xF265 ({ withRegs [(3, 0x77)] with i := 0x300 }.writeBytes 0x300 [2, 5, 4])
      (fun t => ([0, 1, 2, 3].map t.reg, t.i)) = some ([2, 5, 4, 0x77], 0x303) := by decide
theorem test_load_out_of_range :
    after 0xF065 { State.reset with i := 0x1000 } (fun t => (record t, t.reg 0)) =
      some ((some .memoryOutOfBounds, 0xF065, 0x200, 0x202), 0) := by decide
/-- Writing what an unlisted cell reads as removes the entry: equal memories are equal lists. -/
theorem test_memory_canonical :
    Memory.writeBytes Config.defaultFont [(0x300, 5)] 0x300 [0] = [] ∧
    Memory.writeBytes Config.defaultFont [(0x302, 9)] 0x300 [1, 2] = [(0x300, 1), (0x301, 2), (0x302, 9)] := by decide

/-! ### Display (vectors TG) -/

theorem test_drw_clips_right :
    after 0xD011 ({ withRegs [(0, 60)] with i := 0x300 }.writeBytes 0x300 [0xFF])
      (fun t => ([59, 60, 61, 62, 63, 0].map (t.pixel · 0), t.reg vf, t.draw)) =
      some ([false, true, true, true, true, false], 0, true) := by decide
theorem test_drw_collision :
    after 0xD011 ({ withRegs [(0, 10), (1, 5)] with i := 0x300, fb := Framebuffer.blank.toggle 10 5 }.writeBytes 0x300
      [0x80]) (fun t => (t.pixel 10 5, t.reg vf)) = some (false, 1) := by decide
theorem test_cls :
    after 0x00E0 { withRegs [(15, 3)] with fb := Framebuffer.blank.toggle 10 5 }
      (fun t => (t.pixel 10 5, t.draw, t.reg vf)) = some (false, true, 3) := by decide

/-! ### Keys and timers (vectors TK) -/

theorem test_skp_pressed :
    after 0xE49E { withRegs [(4, 7)] with keys := State.reset.keys.set 7 true } (·.pc) = some 0x204 := by decide
theorem test_skp_invalid :
    after 0xE49E (withRegs [(4, 0x10)]) record = some (some .invalidKey, 0xE49E, 0x200, 0x202) := by decide
theorem test_sknp_released : after 0xE4A1 (withRegs [(4, 7)]) (·.pc) = some 0x204 := by decide
theorem test_sknp_invalid :
    after 0xE4A1 (withRegs [(4, 0x10)]) record = some (some .invalidKey, 0xE4A1, 0x200, 0x202) := by decide
theorem test_ldVxDt : after 0xF507 { State.reset with dt := 0x2A } (fun t => (t.reg 5, t.dt)) = some (0x2A, 0x2A) := by decide
theorem test_ldDtVx : after 0xF315 (withRegs [(3, 7)]) (fun t => (t.dt, t.st)) = some (7, 0) := by decide
theorem test_ldStVx : after 0xF318 (withRegs [(3, 2)]) (fun t => (t.dt, t.st)) = some (0, 2) := by decide
theorem test_ldVxK : after 0xF30A State.reset (fun t => (t.run, t.pc, t.reg 3)) = some (.awaitingKey 3, 0x202, 0) := by decide

/-! ### Host operations (vectors TH) -/

theorem test_press_resolves_wait :
    afterOp (.key 10 true) { State.reset with run := .awaitingKey 15 } (fun t => (t.reg vf, t.run, t.keys[10])) =
      some (0x0A, .running, true) := by decide
theorem test_key_beyond_range :
    afterOp (.key 16 true) { State.reset with run := .awaitingKey 0 } (fun t => (record t, t.run, t.reg 0)) =
      some ((some .invalidKey, 0, 0, 0x200), .faulted, 0) := by decide
theorem test_timer_floors :
    afterOp .timer { State.reset with dt := 1, st := 0 } (fun t => (t.dt, t.st)) = some (0, 0) := by decide
theorem test_tick_before_load : perform .tick { State.reset with run := .unloaded } = .fault .tickBeforeLoad := by rfl
theorem test_load_image :
    afterOp (.load (some [0x12, 0x00])) { withRegs [(3, 9)] with run := .awaitingKey 3, sp := 2, pc := 0x202 }
      (fun t => (t.readByte 0x200, t.pc, t.sp, t.reg 3, t.run)) = some (0x12, 0x200, 0, 0, .running) := by decide
theorem test_load_absent :
    afterOp (.load none) { State.reset with pc := 0x202 } (fun t => (record t, t.run)) =
      some ((some .invalidProgram, 0, 0, 0x202), .faulted) := by decide
/-- With nothing placed the first step fetches the word 0 (TH2; log 1). -/
theorem test_first_step_of_empty_image :
    (match step State.reset with | .next t => some (record t) | _ => none) =
      some (some .unknownOpcode, 0, 0x200, 0x202) := by decide

/-! ### Witnesses: for each obligation with hypotheses, a state and operands that meet them, each clause at its edge -/

/-- The state after reset with the word w at pc. -/
def holding (w : Nat) : State := State.reset.withFetchWord 16 w

theorem witness_EncodedInstructionsDecodeBack : (Instr.drw 15 0 15).wellFormed = true := by decide
theorem witness_DecodedWordsEncodeBack : decodeWord 0xDF0F = some (.drw 15 0 15) := by decide
theorem witness_DecoderFollowsOpcodeMap :
    decodeWord 0x8014 = some (.addReg 0 1) ∧
    ∃ r ∈ opcodeMap, r.holds 0x8014 = true ∧ r.pattern = "8xy4" := by decide

theorem witness_TickByRunState :
    (∃ s : State, s.run = .unloaded) ∧ (∃ s : State, s.run = .faulted) ∧ (∃ s : State, s.run = .awaitingKey 15) ∧
    (∃ s : State, s.run = .running) :=
  ⟨⟨{ State.reset with run := .unloaded }, rfl⟩, ⟨{ State.reset with run := .faulted }, rfl⟩,
   ⟨{ State.reset with run := .awaitingKey 15 }, rfl⟩, ⟨State.reset, rfl⟩⟩
/-- At the last fetchable address; with no operation waiting, and with a TICK waiting first. -/
theorem witness_StepRunsDecodedInstruction :
    let s := State.withFetchWord { State.reset with pc := 4094 } 16 0x6A05
    (s.ticksNext s ∧ s.run = .running ∧ s.pc.toNat = 4094 ∧
      decodeWord (wordOfBytes (s.readByte s.pc.toNat) (s.readByte (s.pc.toNat + 1))) = some (.ldImm 10 5)) ∧
    State.ticksNext { s with inbox := [.tick, .timer] } { s with inbox := [.timer] } :=
  ⟨⟨.inl ⟨rfl, rfl⟩, by decide, by decide, by decide⟩, .inr ⟨_, rfl, rfl⟩⟩
theorem witness_FetchChecksRangeAndReadsBigEndian :
    ∀ a : Word, a = 4094 ∨ a = 4095 →
      State.ticksNext { State.reset with pc := a } { State.reset with pc := a } ∧
      State.run { State.reset with pc := a } = .running := fun _ _ => ⟨.inl ⟨rfl, rfl⟩, rfl⟩
theorem witness_IllegalWordRaisesUnknownOpcode :
    State.reset.ticksNext State.reset ∧ State.reset.run = .running ∧ State.reset.pc.toNat ≤ 4094 ∧
    decodeWord State.reset.fetchWord = none := ⟨.inl ⟨rfl, rfl⟩, by decide, by decide, by decide⟩
/-- A fetch fault at 4095, an execute fault at 4094. -/
theorem witness_TickFaultsArePrecise :
    (∃ s t : State, s.ticksNext s ∧ s.run = .running ∧ 4094 < s.pc.toNat ∧ step s = .next t ∧ t.run = .faulted) ∧
    (∃ s t : State, s.ticksNext s ∧ s.run = .running ∧ s.pc.toNat = 4094 ∧ step s = .next t ∧ t.run = .faulted) :=
  ⟨⟨{ State.reset with pc := 4095 }, _, .inl ⟨rfl, rfl⟩, rfl, by decide, rfl, rfl⟩,
   ⟨{ State.reset with pc := 4094 }, _, .inl ⟨rfl, rfl⟩, rfl, by decide, rfl, rfl⟩⟩
theorem witness_OnlyListedInstructionsFault :
    (∃ s t : State, s.run = .running ∧ exec .ret s = .next t ∧ t.run = .faulted) ∧
    (∃ s t : State, s.run = .running ∧ exec (.call 0) s = .next t ∧ t.run = .faulted) ∧
    (∃ s t : State, s.run = .running ∧ exec (.ldB 0) s = .next t ∧ t.run = .faulted) ∧
    (∃ s t : State, s.run = .running ∧ exec (.skp 0) s = .next t ∧ t.run = .faulted) :=
  ⟨⟨State.reset, _, rfl, rfl, rfl⟩, ⟨{ State.reset with sp := 16 }, _, rfl, rfl, rfl⟩,
   ⟨{ State.reset with i := 4094 }, _, rfl, rfl, rfl⟩, ⟨withRegs [(0, 16)], _, rfl, rfl, rfl⟩⟩

theorem witness_CallPushesAdvancedPc :
    State.sp { State.reset with sp := 15 } < 16 ∧ (State.sp { State.reset with sp := 16 }).val = 16 := by decide
theorem witness_ReturnPopsIntoPc :
    0 < (State.sp { State.reset with sp := 1 }).val ∧ 0 < (State.sp { State.reset with sp := 16 }).val ∧
    State.reset.sp.val = 0 := by decide
/-- The state right after the call meets the premises on the later state. -/
theorem witness_ReturnUndoesCall :
    let s : State := { State.reset with sp := 15 }
    s.sp.val < 16 ∧ ∃ t, exec (.call 0x300) s = .next t ∧ ∃ m : State, m.sp = t.sp ∧ m.stack = t.stack :=
  ⟨by decide, _, rfl, _, rfl, rfl⟩
theorem witness_SixteenNestedCallsThenOverflow :
    State.reset.run = .running ∧ State.reset.sp.val + (List.replicate 16 (0x300 : Addr)).length = 16 := by decide

theorem witness_SkipsAddTwoWhenConditionHolds : 0 < 1 ∧ 1 < 16 ∧ 0 < 15 ∧ 15 < 16 := by decide
theorem witness_AddSetsCarry : (0 : Reg) ≠ vf := by decide
theorem witness_SubtractionsClearFlagOnBorrow : (14 : Reg) ≠ vf := by decide
theorem witness_ShiftsMoveOneBitInPlace : (7 : Reg) ≠ vf := by decide
theorem witness_RandomByteIsMasked : (0 : Byte) = 0 ∧ ∃ t, exec (.rnd 3 0) State.reset = .next t := ⟨rfl, _, rfl⟩

theorem witness_BcdStoresThreeDigits :
    State.memCanonical { State.reset with i := 4093 } ∧ State.ea { State.reset with i := 4093 } 2 = 4095 ∧
    State.ea { State.reset with i := 4094 } 2 = 4096 := ⟨by rfl, by decide, by decide⟩
theorem witness_StoreRegistersAtIndex :
    State.memCanonical { State.reset with i := 4080 } ∧ State.ea { State.reset with i := 4080 } 15 = 4095 ∧
    State.ea { State.reset with i := 4081 } 15 = 4096 := ⟨by rfl, by decide, by decide⟩
theorem witness_LoadRegistersFromIndex :
    State.ea { State.reset with i := 4095 } 0 = 4095 ∧ State.ea { State.reset with i := 4096 } 0 = 4096 := by decide
theorem witness_LoadRegistersUndoesStore :
    let s : State := { withRegs [(0, 7), (15, 9)] with i := 4080 }
    s.memCanonical ∧ s.ea 15 = 4095 ∧ ∃ t, exec (.storeRegs 15) s = .next t ∧
      ∃ m : State, m.i = s.i ∧ ∀ a, m.readByte a = t.readByte a :=
  ⟨by rfl, by decide, _, rfl, { withRegs [(0, 7), (15, 9)] with i := 4080 }.writeBytes 4080
    (State.regsUpTo (withRegs [(0, 7), (15, 9)]) 15), rfl, fun _ => rfl⟩
theorem witness_StoreIsSeenByNextFetch :
    let s : State := { withRegs [(0, 0x12), (1, 0x0C)] with i := 0x208 }
    s.memCanonical ∧ s.ea 1 ≤ 4095 ∧ (1 : Reg).val = (0 : Reg).val + 1 ∧ ∃ t, exec (.storeRegs 1) s = .next t ∧
      ∃ m : State, m.pc.toNat = s.ea 0 ∧ ∀ a, m.readByte a = t.readByte a :=
  ⟨by rfl, by decide, by decide, _, rfl, { { withRegs [(0, 0x12), (1, 0x0C)] with i := 0x208 }.writeBytes 0x208
    (State.regsUpTo (withRegs [(0, 0x12), (1, 0x0C)]) 1) with pc := 0x208 }, rfl, fun _ => rfl⟩

/-- No row with I far outside; fifteen rows that end at 4095; two rows that end at 4096. -/
theorem witness_DrawTogglesExactlyTheSprite :
    State.ea { State.reset with i := 0xFFFF } 0 = 65535 ∧ State.ea { State.reset with i := 4081 } (15 - 1) = 4095 ∧
    4095 < State.ea { State.reset with i := 4095 } (2 - 1) := by decide
theorem witness_DrawingTwiceRestoresPixels :
    let s : State := { withRegs [(0, 60), (1, 31)] with i := 0 }
    s.ea (5 - 1) ≤ 4095 ∧ ∃ t, exec (.drw 0 1 5) s = .next t ∧
      ∃ m : State, m.fb = t.fb ∧ m.i = s.i ∧ m.reg 0 = s.reg 0 ∧ m.reg 1 = s.reg 1 ∧
        ∀ a, m.readByte a = s.readByte a :=
  ⟨by decide, _, rfl, _, rfl, rfl, by decide, by decide, fun _ => rfl⟩
theorem witness_OriginOutsideGridDropsSprite :
    State.ea State.reset (5 - 1) ≤ 4095 ∧ 64 ≤ ((withRegs [(0, 64)]).reg 0).toNat ∧
    32 ≤ ((withRegs [(1, 32)]).reg 1).toNat := by decide

theorem witness_KeySkipsReadWholeByte :
    ((withRegs [(4, 15)]).reg 4).toNat < 16 ∧ 15 < ((withRegs [(4, 16)]).reg 4).toNat := by decide
/-- Each of the three ways out of a wait. -/
theorem witness_OnlyPressOrLoadEndsKeyWait :
    let s : State := { State.reset with run := .awaitingKey 3 }
    s.run = .awaitingKey 3 ∧
    (∃ t, perform (.key 15 true) s = .next t ∧ t.run ≠ .awaitingKey 3) ∧
    (∃ t, perform (.load (some [])) s = .next t ∧ t.run ≠ .awaitingKey 3) ∧
    (∃ t, perform (.key 16 false) s = .next t ∧ t.run ≠ .awaitingKey 3) :=
  ⟨rfl, ⟨_, rfl, by decide⟩, ⟨_, rfl, by decide⟩, ⟨_, rfl, by decide⟩⟩
theorem witness_FirstPressResolvesKeyWait :
    State.run { State.reset with run := .awaitingKey 3 } = .awaitingKey 3 ∧
    ∀ op ∈ [HostOp.tick, .key 5 false, .timer], op = .tick ∨ op = .timer ∨ ∃ j : Fin 16, op = .key j.val false :=
  ⟨rfl, by simp; exact ⟨5, rfl⟩⟩

theorem witness_LoadResetsEverything : (List.replicate 3584 (0xAA : Byte)).length = 3584 := List.length_replicate
theorem witness_LoadLeavesNoResidue :
    let s : State := withRegs [(3, 9)]
    let u : State := { State.reset with run := .awaitingKey 3, draws := 4 }
    u.font = s.font ∧ ∃ t t', load (some [0x12, 0]) s = .next t ∧ t.run = .running ∧ load (some [0x12, 0]) u = .next t' :=
  ⟨rfl, _, _, rfl, rfl, rfl⟩
theorem witness_BadImageRaisesInvalidProgram : 3584 < (List.replicate 3585 (0xAA : Byte)).length := by
  rw [List.length_replicate]
  decide
/-- The four run states of the clauses of KEY, TMR and the operations before a load and after a fault. -/
theorem witness_KeyEventByRunState :
    State.run { State.reset with run := .unloaded } = .unloaded ∧
    State.run { State.reset with run := .faulted } = .faulted ∧ State.reset.run = .running ∧
    State.run { State.reset with run := .awaitingKey 0 } = .awaitingKey 0 := by decide
theorem witness_KeyIndexOutsideRangeFaults :
    15 < 16 ∧ State.reset.live ∧ State.live { State.reset with run := .awaitingKey 0 } ∧
    State.run { State.reset with run := .unloaded } = .unloaded := ⟨by decide, .inl rfl, .inr ⟨0, rfl⟩, rfl⟩
theorem witness_TimerDecrementFloorsAtZero :
    State.live { State.reset with dt := 0, st := 1 } ∧ State.run { State.reset with run := .faulted } = .faulted :=
  ⟨.inl rfl, rfl⟩
theorem witness_TimersNeverWrapUnderRepeatedTmr : State.live { State.reset with dt := 2, st := 1 } := .inl rfl
theorem witness_FaultedCoreIsFrozen :
    State.run { State.reset with run := .faulted, fcause := some .unknownOpcode } = .faulted ∧
    (List.replicate 3584 (0 : Byte)).length ≤ 3584 ∧ 3584 < (List.replicate 3585 (0 : Byte)).length := by
  rw [List.length_replicate, List.length_replicate]
  decide
theorem witness_OperationsBeforeFirstLoad :
    State.atPowerOn { withRegs [(0, 0x5A), (9, 0xC3)] with run := .unloaded, pc := 0xFFFF } ∧
    (List.replicate 3584 (0 : Byte)).length ≤ 3584 ∧ 3584 < (List.replicate 3585 (0 : Byte)).length := by
  rw [List.length_replicate, List.length_replicate]
  exact ⟨⟨rfl, rfl⟩, by decide⟩
theorem witness_WaitingOperationsAreServedInOrder :
    State.inbox { State.reset with inbox := [.key 5 true, .tick] } = .key 5 true :: [.tick] ∧
    ∃ t, step { State.reset with inbox := [.key 5 true, .tick] } = .next t := ⟨rfl, _, rfl⟩

theorem witness_OnlyNamedInstructionsWrite : ∃ t, exec (.storeRegs 2) (withRegs [(0, 9)]) = .next t ∧
    t.mem ≠ State.mem (withRegs [(0, 9)]) := by
  refine ⟨_, rfl, ?_⟩
  decide
theorem witness_SoundTimerAndDrawFlagAreNeverRead : ∃ t, exec (.ldStVx 3) State.reset = .next t := ⟨_, rfl⟩
theorem witness_SelfJumpIsFixedPoint : (holding 0x1200).endedNormally ∧ (holding 0x1200).ticksNext (holding 0x1200) :=
  ⟨⟨by decide, by decide, by decide⟩, .inl ⟨rfl, rfl⟩⟩
theorem witness_PlacedWordRunsNext :
    (Instr.drw 0 1 15).wellFormed = true ∧
    State.memCanonical { State.reset with pc := 0xFFFF, run := .faulted, inbox := [.timer] } := ⟨by decide, rfl⟩
theorem witness_ResetMeetsInvariants :
    State.font (withRegs [(3, 9)]) = State.reset.font ∧ ∃ t, load (some []) (withRegs [(3, 9)]) = .next t :=
  ⟨rfl, _, rfl⟩
/-- A stored byte, listed, and a step that runs. -/
theorem witness_MemoryStaysCanonical : (holding 0xF055).memCanonical ∧ ∃ t, step (holding 0xF055) = .next t :=
  ⟨by rfl, _, rfl⟩
/-- A state with a fault latched, and one without that the step faults. -/
theorem witness_FaultRecordStaysCoherent :
    State.recordCoherent { State.reset with run := .faulted, fcause := some .invalidKey } ∧
    State.reset.recordCoherent ∧ ∃ t, step State.reset = .next t ∧ t.run = .faulted :=
  ⟨⟨⟨fun _ => rfl, by decide⟩, by decide⟩, ⟨⟨by decide, by decide⟩, by decide⟩, _, rfl, rfl⟩
/-- The largest pc, the deepest stack, the largest entry; and a step that pushes it. -/
theorem witness_PcAndStackStayBounded :
    State.pcBounded { State.reset with pc := 4350, sp := 16, stack := Vector.replicate 16 4096 } ∧
    ∃ t, step (State.withFetchWord { State.reset with pc := 0xFFE } 16 0x2FFF) = .next t ∧ t.stack[0] = 4096 :=
  ⟨fun _ => ⟨by decide, by decide⟩, _, rfl, by decide⟩

end Sys2Proof.Tests
end

section
/-! The family 10_state: what every step keeps of memory and of the fault record, who writes what, what no instruction
reads, and the state after reset (spec 10_state R24 to R40). -/

namespace Sys2Proof.Machine

open Host

/-! ### Memory keeps its canonical form -/

/-- An executed instruction keeps the canonical form: what it writes to memory goes through writeBytes. -/
theorem memCanonical_exec (i : Instr) (s t : State) (hm : s.memCanonical) (h : exec i s = .next t) :
    t.memCanonical := by
  obtain ⟨hmem, hfont, -⟩ := exec_memory i s t h
  unfold State.memCanonical
  rw [hfont]
  rcases hmem with hmem | ⟨a, bs, hmem⟩
  · rw [hmem]
    exact hm
  · rw [hmem]
    exact memCanonical_writeBytes s a bs hm

/-- A key event writes no memory and keeps FONT. -/
theorem keyEvent_mem_font (s : State) (k : Fin 16) (p : Bool) :
    (s.keyEvent k p).mem = s.mem ∧ (s.keyEvent k p).font = s.font := by
  unfold State.keyEvent
  split
  · exact ⟨rfl, rfl⟩
  · exact ⟨rfl, rfl⟩
  · exact ⟨rfl, rfl⟩
  · split <;> exact ⟨rfl, rfl⟩

/-- A timer tick writes no memory and keeps FONT. -/
theorem timerTick_mem_font (s : State) : s.timerTick.mem = s.mem ∧ s.timerTick.font = s.font := by
  unfold State.timerTick
  split <;> exact ⟨rfl, rfl⟩

/-- Settles O56: of all a step can do only exec and LOAD write memory, exec through writeBytes from a canonical memory
and LOAD through writeBytes from the empty list. -/
theorem memoryStaysCanonical : Obligations.MemoryStaysCanonical := by
  unfold Obligations.MemoryStaysCanonical
  apply step_preserves State.memCanonical
  case served => exact fun _ _ hm => hm
  case executed => exact fun i s t hm _ _ h => memCanonical_exec i s.advance t hm h
  case latched => exact fun _ _ _ _ hm _ => hm
  case advancedLatched => exact fun _ _ _ hm => hm
  case loaded => exact fun s bytes _ => memCanonical_loaded s bytes
  case keyed =>
    intro s k p hm
    obtain ⟨hmem, hfont⟩ := keyEvent_mem_font s k p
    unfold State.memCanonical
    rw [hmem, hfont]
    exact hm
  case timed =>
    intro s hm
    obtain ⟨hmem, hfont⟩ := timerTick_mem_font s
    unfold State.memCanonical
    rw [hmem, hfont]
    exact hm

/-! ### The fault record stays coherent -/

/-- A latched fault other than RegisterOutOfBounds is a coherent record, whatever stood there before. -/
theorem recordCoherent_latch (s : State) (k : ErrorKind) (op addr : Word) (hk : k ≠ .registerOutOfBounds) :
    (s.latch k op addr).recordCoherent :=
  ⟨⟨fun _ => rfl, fun _ => Option.some_ne_none k⟩, fun h => hk (Option.some.inj h)⟩

/-- Coherence depends on the cause and on whether the core is FAULTED, and on nothing else. -/
theorem recordCoherent_congr (s t : State) (hs : s.recordCoherent) (hcause : t.fcause = s.fcause)
    (hrun : t.run = .faulted ↔ s.run = .faulted) : t.recordCoherent := by
  obtain ⟨hiff, hkind⟩ := hs
  unfold State.recordCoherent
  rw [hcause, hrun]
  exact ⟨hiff, hkind⟩

/-- An instruction executed in RUNNING keeps the record coherent: it raises a fault, or leaves the cause and ends in
RUNNING or in a key wait. -/
theorem recordCoherent_exec (i : Instr) (s t : State) (hs : s.recordCoherent) (hrun : s.run = .running)
    (h : exec i s = .next t) : t.recordCoherent := by
  rcases exec_answers i s with ⟨k, hk, hraise⟩ | ⟨u, hu, hrunU, hcause, -, -⟩
  · rw [hraise] at h
    cases h
    exact recordCoherent_latch _ _ _ _ hk
  · rw [hu] at h
    cases h
    refine recordCoherent_congr s t hs hcause ?_
    rcases hrunU with hr | ⟨x, hr⟩ <;> simp [hr, hrun]

/-- A key event keeps the cause, and neither enters nor leaves FAULTED. -/
theorem keyEvent_record (s : State) (k : Fin 16) (p : Bool) :
    (s.keyEvent k p).fcause = s.fcause ∧ ((s.keyEvent k p).run = .faulted ↔ s.run = .faulted) := by
  unfold State.keyEvent
  split
  · exact ⟨rfl, Iff.rfl⟩
  · exact ⟨rfl, Iff.rfl⟩
  · exact ⟨rfl, Iff.rfl⟩
  next d hrun => split <;> simp [hrun]

/-- A timer tick keeps the cause and the run state. -/
theorem timerTick_record (s : State) : s.timerTick.fcause = s.fcause ∧ s.timerTick.run = s.run := by
  unfold State.timerTick
  split <;> exact ⟨rfl, rfl⟩

/-- Settles O57: a cause is written only by latching it, which also enters FAULTED, and cleared only by LOAD, which also
leaves it; everything else keeps both. -/
theorem faultRecordStaysCoherent : Obligations.FaultRecordStaysCoherent := by
  unfold Obligations.FaultRecordStaysCoherent
  apply step_preserves State.recordCoherent
  case served => exact fun _ _ hs => hs
  case executed => exact fun i s t hs hrun _ h => recordCoherent_exec i s.advance t hs hrun h
  case latched => exact fun s k op a _ hk => recordCoherent_latch s k op a hk
  case advancedLatched => exact fun s op a _ => recordCoherent_latch s.advance .unknownOpcode op a (by decide)
  case loaded => exact fun _ _ _ => ⟨by simp [State.loaded], by simp [State.loaded]⟩
  case keyed =>
    intro s k p hs
    obtain ⟨hcause, hrun⟩ := keyEvent_record s k p
    exact recordCoherent_congr s _ hs hcause hrun
  case timed =>
    intro s hs
    obtain ⟨hcause, hrun⟩ := timerTick_record s
    exact recordCoherent_congr s _ hs hcause (by rw [hrun])

/-! ### Who writes what -/

/-- From s to t the instruction i changed no key flag, and each other element that is not a register, pc, the draw flag or
the record only where the spec names i as its writer (R24, R28, R31 to R34, R51). -/
structure WritesAsNamed (i : Instr) (s t : State) : Prop where
  keys : t.keys = s.keys
  index : t.i ≠ s.i → i.pattern ∈ ["Annn", "Fx1E", "Fx29", "Fx55", "Fx65"]
  stack : t.stack ≠ s.stack → i.pattern = "2nnn"
  sp : t.sp ≠ s.sp → i.pattern ∈ ["2nnn", "00EE"]
  display : t.fb ≠ s.fb → i.pattern ∈ ["00E0", "Dxyn"]
  mem : t.mem ≠ s.mem → i.pattern ∈ ["Fx33", "Fx55"]
  delay : t.dt ≠ s.dt → i.pattern = "Fx15"
  sound : t.st ≠ s.st → i.pattern = "Fx18"

/-- A raised fault changes nothing that a writer is named for. -/
theorem writesAsNamed_raiseAt (i : Instr) (k : ErrorKind) (s t : State) (h : raiseAt i k s = .next t) :
    WritesAsNamed i s t := by
  cases h
  constructor <;> simp

/-- A skip changes pc only. -/
theorem writesAsNamed_skipIf (i : Instr) (c : Bool) (s t : State) (h : skipIf c s = .next t) :
    WritesAsNamed i s t := by
  rw [skipIf_next] at h
  cases h
  cases c <;> constructor <;> simp

/-- 00EE changes sp. -/
theorem writesAsNamed_ret (s t : State) (h : execRet s = .next t) : WritesAsNamed .ret s t := by
  unfold execRet at h
  by_cases hs : s.sp.val = 0
  · rw [(State.pop_eq_none s).2 hs] at h
    exact writesAsNamed_raiseAt _ _ s t h
  · rw [State.pop_of_pos s hs] at h
    cases h
    constructor <;> simp [Instr.pattern]

/-- 2nnn changes a stack slot and sp. -/
theorem writesAsNamed_call (nnn : Addr) (s t : State) (h : execCall nnn s = .next t) :
    WritesAsNamed (.call nnn) s t := by
  unfold execCall at h
  by_cases hs : s.sp.val = 16
  · rw [(State.push_eq_none s _).2 hs] at h
    exact writesAsNamed_raiseAt _ _ s t h
  · rw [State.push_of_lt s _ (by omega)] at h
    cases h
    constructor <;> simp [Instr.pattern]

/-- Every meaning writes as named. -/
theorem writesAsNamed_exec (i : Instr) (s t : State) (h : exec i s = .next t) : WritesAsNamed i s t := by
  cases i
  case ret => exact writesAsNamed_ret s t h
  case call nnn => exact writesAsNamed_call nnn s t h
  case seImm | sneImm | seReg | sneReg => exact writesAsNamed_skipIf _ _ s t h
  case skp | sknp =>
    simp only [exec, execSkp, execSknp] at h
    split at h
    · exact writesAsNamed_raiseAt _ _ s t h
    · exact writesAsNamed_skipIf _ _ s t h
  case drw | ldB | storeRegs | loadRegs =>
    simp only [exec, execDrw, execLdB, execStoreRegs, execLoadRegs] at h
    split at h
    · cases h
      constructor <;> simp [Instr.pattern]
    · exact writesAsNamed_raiseAt _ _ s t h
  all_goals
    cases h
    constructor <;> simp [Instr.pattern]

/-- Settles O51: the parts of WritesAsNamed, which every meaning meets. -/
theorem onlyNamedInstructionsWrite : Obligations.OnlyNamedInstructionsWrite := by
  unfold Obligations.OnlyNamedInstructionsWrite
  intro i s t h
  obtain ⟨hkeys, hindex, hstack, hsp, hfb, hmem, hdt, hst⟩ := writesAsNamed_exec i s t h
  exact ⟨hkeys, hindex, hstack, hsp, hfb, hmem, hdt, hst⟩

/-! ### The sound timer and the draw flag are never read -/

/-- s with another sound timer and draw flag. -/
def State.withSoundDraw (s : State) (b : Byte) (f : Bool) : State := { s with st := b, draw := f }

namespace State

@[simp] theorem withSoundDraw_reg (s : State) (b : Byte) (f : Bool) (r : Reg) :
    (s.withSoundDraw b f).reg r = s.reg r := rfl
@[simp] theorem withSoundDraw_blockInRange (s : State) (b : Byte) (f : Bool) (n : Nat) :
    (s.withSoundDraw b f).blockInRange n = s.blockInRange n := rfl
@[simp] theorem withSoundDraw_keyFlag (s : State) (b : Byte) (f : Bool) (k : Byte) :
    (s.withSoundDraw b f).keyFlag k = s.keyFlag k := rfl
theorem withSoundDraw_loadRegs (s : State) (b : Byte) (f : Bool) (x : Reg) :
    (s.withSoundDraw b f).loadRegs x = (s.loadRegs x).withSoundDraw b f := by
  dsimp only [loadRegs, withSoundDraw]
  rfl
theorem withSoundDraw_bumpIndex (s : State) (b : Byte) (f : Bool) (x : Reg) :
    (s.withSoundDraw b f).bumpIndex x = (s.bumpIndex x).withSoundDraw b f := rfl

end State

/-- Both answers are next states, and they differ in the sound timer and the draw flag only. -/
def AgreeButSoundDraw (r r' : Result) : Prop :=
  ∃ t t', r = .next t ∧ r' = .next t' ∧ t'.withSoundDraw t.st t.draw = t

/-- Putting the two fields back gives the state back. -/
theorem agree_next (s : State) (b : Byte) (f : Bool) :
    AgreeButSoundDraw (.next s) (.next (s.withSoundDraw b f)) := ⟨_, _, rfl, rfl, rfl⟩

/-- Raising a fault reads neither field. -/
theorem agree_raiseAt (i : Instr) (k : ErrorKind) (s : State) (b : Byte) (f : Bool) :
    AgreeButSoundDraw (raiseAt i k s) (raiseAt i k (s.withSoundDraw b f)) := ⟨_, _, rfl, rfl, rfl⟩

/-- A skip reads neither field. -/
theorem agree_skipIf (c : Bool) (s : State) (b : Byte) (f : Bool) :
    AgreeButSoundDraw (skipIf c s) (skipIf c (s.withSoundDraw b f)) := by
  cases c <;> exact ⟨_, _, rfl, rfl, rfl⟩

theorem agree_ret (s : State) (b : Byte) (f : Bool) :
    AgreeButSoundDraw (execRet s) (execRet (s.withSoundDraw b f)) := by
  unfold execRet
  by_cases hs : s.sp.val = 0
  · rw [(State.pop_eq_none s).2 hs, (State.pop_eq_none (s.withSoundDraw b f)).2 hs]
    exact agree_raiseAt _ _ s b f
  · rw [State.pop_of_pos s hs, State.pop_of_pos (s.withSoundDraw b f) hs]
    exact ⟨_, _, rfl, rfl, rfl⟩

theorem agree_call (nnn : Addr) (s : State) (b : Byte) (f : Bool) :
    AgreeButSoundDraw (execCall nnn s) (execCall nnn (s.withSoundDraw b f)) := by
  unfold execCall
  by_cases hs : s.sp.val = 16
  · rw [(State.push_eq_none s _).2 hs, (State.push_eq_none (s.withSoundDraw b f) _).2 hs]
    exact agree_raiseAt _ _ s b f
  · have hlt : s.sp.val < 16 := by omega
    rw [State.push_of_lt s _ hlt, State.push_of_lt (s.withSoundDraw b f) _ hlt]
    exact ⟨_, _, rfl, rfl, rfl⟩

/-- A block access raises its fault, or answers, alike. -/
theorem agree_ifInRange (i : Instr) (k : ErrorKind) (n : Nat) (s : State) (b : Byte) (f : Bool) (r r' : Result)
    (h : AgreeButSoundDraw r r') :
    AgreeButSoundDraw (if s.blockInRange n then r else raiseAt i k s)
      (if (s.withSoundDraw b f).blockInRange n then r' else raiseAt i k (s.withSoundDraw b f)) := by
  rw [State.withSoundDraw_blockInRange]
  split
  · exact h
  · exact agree_raiseAt i k s b f

/-- Every meaning answers alike from two states that differ in the sound timer and the draw flag only. -/
theorem agree_exec (i : Instr) (s : State) (b : Byte) (f : Bool) :
    AgreeButSoundDraw (exec i s) (exec i (s.withSoundDraw b f)) := by
  cases i
  case ret => exact agree_ret s b f
  case call nnn => exact agree_call nnn s b f
  case seImm | sneImm | seReg | sneReg => exact agree_skipIf _ s b f
  case skp | sknp =>
    simp only [exec, execSkp, execSknp, State.withSoundDraw_reg, State.withSoundDraw_keyFlag]
    split
    · exact agree_raiseAt _ _ s b f
    · exact agree_skipIf _ s b f
  case drw x y n => exact agree_ifInRange _ _ n s b f _ _ ⟨_, _, rfl, rfl, rfl⟩
  case ldB x => exact agree_ifInRange _ _ 3 s b f _ _ ⟨_, _, rfl, rfl, rfl⟩
  case storeRegs x => exact agree_ifInRange _ _ (x.val + 1) s b f _ _ ⟨_, _, rfl, rfl, rfl⟩
  case loadRegs x =>
    refine agree_ifInRange _ _ (x.val + 1) s b f _ _ ?_
    rw [State.withSoundDraw_loadRegs, State.withSoundDraw_bumpIndex]
    exact agree_next ((s.loadRegs x).bumpIndex x) b f
  all_goals exact ⟨_, _, rfl, rfl, rfl⟩

/-- Settles O52: both runs answer, and the answers agree but for the sound timer and the draw flag. -/
theorem soundTimerAndDrawFlagAreNeverRead : Obligations.SoundTimerAndDrawFlagAreNeverRead := by
  unfold Obligations.SoundTimerAndDrawFlagAreNeverRead
  intro i s t b f h
  obtain ⟨u, t', hu, ht', hagree⟩ := agree_exec i s b f
  obtain rfl : u = t := by
    rw [hu] at h
    exact Outcome.next.inj h
  exact ⟨t', ht', hagree⟩

/-! ### The state after reset -/

/-- From a state with the default FONT a LOAD of the empty image leaves the state after reset, but for the count of random
bytes and the operations that wait (R40, R224, R291). -/
theorem loaded_nil_eq_reset (s : State) (hfont : s.font = State.reset.font) :
    { s.loaded [] with draws := 0, inbox := [] } = State.reset := by
  unfold State.loaded
  rw [hfont]
  rfl

/-- Settles O55: the invariants by the values of State.reset, the last part because that LOAD answers State.loaded. -/
theorem resetMeetsInvariants : Obligations.ResetMeetsInvariants := by
  unfold Obligations.ResetMeetsInvariants
  refine ⟨Memory.wf_nil _, ⟨by decide, by decide⟩, fun _ => ⟨by decide, ?_⟩, ?_⟩
  · exact fun k hk => absurd hk (Nat.not_lt_zero k.val)
  · intro s t hfont h
    cases h
    exact loaded_nil_eq_reset s hfont

end Sys2Proof.Machine
end

section
/-! The family 20_memory: what a block store leaves in memory for a later fetch, and the operations that wait (spec
20_memory R52, R56, R60, R62, R63, R66). -/

namespace Sys2Proof.Machine

open Host

/-! ### A block store and the word fetched from it -/

/-- Fx55 with its whole block in range writes V0..Vx from I up and then moves I (R60, R164). -/
theorem exec_storeRegs_of_inRange (s : State) (x : Reg) (hx : s.ea x.val ≤ 4095) :
    exec (.storeRegs x) s = .next ((s.writeBytes (s.ea 0) (s.regsUpTo x)).bumpIndex x) := by
  have hrange : s.blockInRange (x.val + 1) = true := by
    rw [State.blockInRange_succ]
    exact decide_eq_true hx
  rw [exec, execStoreRegs, if_pos hrange]

/-- The cell I + k of the block that Fx55 writes holds V[k] (R164). -/
theorem readByte_writeBytes_regsUpTo (s : State) (x k : Reg) (hm : s.memCanonical) (hx : s.ea x.val ≤ 4095)
    (hk : k ≤ x) : (s.writeBytes (s.ea 0) (s.regsUpTo x)).readByte (s.ea k.val) = s.reg k := by
  have hfits : s.ea 0 + (s.regsUpTo x).length ≤ Config.memSize := by
    rw [State.length_regsUpTo]
    exact Nat.succ_le_succ hx
  have hoffset : s.ea k.val - s.ea 0 = k.val := Nat.add_sub_cancel_left ..
  have hinside : s.ea 0 ≤ s.ea k.val ∧ s.ea k.val - s.ea 0 < (s.regsUpTo x).length := by
    rw [hoffset, State.length_regsUpTo]
    exact ⟨Nat.add_le_add_left (Nat.zero_le _) _, Nat.lt_succ_of_le hk⟩
  rw [readByte_writeBytes s _ _ _ hm hfits, dif_pos hinside, State.getElem_regsUpTo, hoffset, Fin.ofNat_val_eq_self]

/-- Settles O31: the two bytes fetched are the cells I + k and I + l = I + k + 1 of the block stored. -/
theorem storeIsSeenByNextFetch : Obligations.StoreIsSeenByNextFetch := by
  unfold Obligations.StoreIsSeenByNextFetch
  intro s x k l hm hx hlx hlk
  refine ⟨_, exec_storeRegs_of_inRange s x hx, fun m hpc hmem => ?_⟩
  have hkl : k ≤ l := Fin.le_def.2 (hlk ▸ Nat.le_succ k.val)
  have hnext : s.ea k.val + 1 = s.ea l.val := by rw [hlk]; rfl
  rw [State.fetchWord, State.readWord, hpc, hnext, hmem, hmem, State.bumpIndex_readByte, State.bumpIndex_readByte,
    readByte_writeBytes_regsUpTo s x k hm hx (hkl.trans hlx), readByte_writeBytes_regsUpTo s x l hm hx hlx]

/-! ### No operation touches the operations that wait -/

/-- A LOAD, failed or not, keeps the operations that wait (log 5). -/
theorem load_inbox (img : Option (List Byte)) (s t : State) (h : load img s = .next t) : t.inbox = s.inbox := by
  rcases load_answers img s with ⟨bytes, -, -, hload⟩ | ⟨-, hload⟩
  all_goals
    rw [hload] at h
    cases h
    rfl

/-- A cycle keeps the operations that wait: a fault and an executed instruction both do. -/
theorem runCycle_inbox (s t : State) (h : runCycle s = .next t) : t.inbox = s.inbox := by
  unfold runCycle at h
  split at h
  · cases h
    rfl
  · split at h
    · cases h
      rfl
    next i _ =>
      obtain ⟨-, -, hinbox⟩ := exec_memory i s.advance t h
      exact hinbox

/-- A TICK keeps the operations that wait. -/
theorem tick_inbox (s t : State) (h : tick s = .next t) : t.inbox = s.inbox := by
  unfold tick at h
  split at h
  · cases h
  · cases h
    rfl
  · cases h
    rfl
  · exact runCycle_inbox s t h

/-- A key event keeps the operations that wait. -/
theorem keyEvent_inbox (s : State) (k : Fin 16) (p : Bool) : (s.keyEvent k p).inbox = s.inbox := by
  unfold State.keyEvent
  split
  · rfl
  · rfl
  · rfl
  · split <;> rfl

/-- KEY keeps the operations that wait, also with an index above 15. -/
theorem key_inbox (k : Nat) (p : Bool) (s t : State) (h : key k p s = .next t) : t.inbox = s.inbox := by
  unfold key at h
  split at h
  · cases h
    exact keyEvent_inbox s _ p
  · split at h
    all_goals
      cases h
      rfl

/-- TMR keeps the operations that wait. -/
theorem timerTick_inbox (s : State) : s.timerTick.inbox = s.inbox := by
  unfold State.timerTick
  split <;> rfl

/-- No operation changes the operations that still wait. -/
theorem perform_inbox (op : HostOp) (s t : State) (h : perform op s = .next t) : t.inbox = s.inbox := by
  cases op with
  | load img => exact load_inbox img s t h
  | tick => exact tick_inbox s t h
  | key k p => exact key_inbox k p s t h
  | timer =>
    cases h
    exact timerTick_inbox s

/-- Where an operation waits, a step performs the oldest on the state without it (R62; log 4). -/
theorem step_of_inbox_cons (s : State) (op : HostOp) (rest : List HostOp) (h : s.inbox = op :: rest) :
    step s = perform op { s with inbox := rest } := by
  rw [step, serve, h]

/-- Settles O50: a step is the oldest operation performed on the state without it, and no operation changes the others
that wait. -/
theorem waitingOperationsAreServedInOrder : Obligations.WaitingOperationsAreServedInOrder := by
  unfold Obligations.WaitingOperationsAreServedInOrder
  intro s op rest hinbox
  have hstep := step_of_inbox_cons s op rest hinbox
  refine ⟨hstep, fun t ht => ?_⟩
  rw [hstep] at ht
  exact perform_inbox op { s with inbox := rest } t ht

end Sys2Proof.Machine
end

section
/-! The family 30_encoding: the decoder against the encoder and against the opcode map, an illegal word, and the word
placed for the host (spec 30_encoding R80 to R88; 40_cycle_and_control R101 to R103). -/

namespace Sys2Proof

/-! ### Decoding an encoded instruction -/

/-- The word of a well-formed instruction decodes to it (R84, R85). -/
theorem decodeWord_encode (i : Instr) : i.wellFormed = true → decodeWord (encode i) = some i := by
  cases i with
  | cls => exact Laws.RoundTrip.cls
  | ret => exact Laws.RoundTrip.ret
  | jp nnn => exact Laws.RoundTrip.jp nnn
  | call nnn => exact Laws.RoundTrip.call nnn
  | seImm x nn => exact Laws.RoundTrip.seImm x nn
  | sneImm x nn => exact Laws.RoundTrip.sneImm x nn
  | seReg x y => exact Laws.RoundTrip.seReg x y
  | ldImm x nn => exact Laws.RoundTrip.ldImm x nn
  | addImm x nn => exact Laws.RoundTrip.addImm x nn
  | ldReg x y => exact Laws.RoundTrip.ldReg x y
  | orReg x y => exact Laws.RoundTrip.orReg x y
  | andReg x y => exact Laws.RoundTrip.andReg x y
  | xorReg x y => exact Laws.RoundTrip.xorReg x y
  | addReg x y => exact Laws.RoundTrip.addReg x y
  | subReg x y => exact Laws.RoundTrip.subReg x y
  | shr x y => exact Laws.RoundTrip.shr x y
  | subnReg x y => exact Laws.RoundTrip.subnReg x y
  | shl x y => exact Laws.RoundTrip.shl x y
  | sneReg x y => exact Laws.RoundTrip.sneReg x y
  | ldI nnn => exact Laws.RoundTrip.ldI nnn
  | jpV0 nnn => exact Laws.RoundTrip.jpV0 nnn
  | rnd x nn => exact Laws.RoundTrip.rnd x nn
  | drw x y n => exact Laws.RoundTrip.drw x y n
  | skp x => exact Laws.RoundTrip.skp x
  | sknp x => exact Laws.RoundTrip.sknp x
  | ldVxDt x => exact Laws.RoundTrip.ldVxDt x
  | ldVxK x => exact Laws.RoundTrip.ldVxK x
  | ldDtVx x => exact Laws.RoundTrip.ldDtVx x
  | ldStVx x => exact Laws.RoundTrip.ldStVx x
  | addI x => exact Laws.RoundTrip.addI x
  | ldF x => exact Laws.RoundTrip.ldF x
  | ldB x => exact Laws.RoundTrip.ldB x
  | storeRegs x => exact Laws.RoundTrip.storeRegs x
  | loadRegs x => exact Laws.RoundTrip.loadRegs x

/-- Two bytes whose word decodes are that instruction, and the bytes after them are left over (R80, R52). -/
theorem decode_of_decodeWord (hi lo : Byte) (rest : List Byte) (i : Instr)
    (h : decodeWord (wordOfBytes hi lo) = some i) : decode (hi :: lo :: rest) = .ok (i, rest) := by
  simp only [decode, h]

/-- Settles O1: the two bytes of an instruction, high byte first, are its word again, and that word decodes to it. -/
theorem encodedInstructionsDecodeBack : Obligations.EncodedInstructionsDecodeBack := by
  unfold Obligations.EncodedInstructionsDecodeBack
  intro i rest hwf
  apply decode_of_decodeWord
  rw [wordOfBytes_highByte_lowByte]
  exact decodeWord_encode i hwf

/-- Settles O4: the decoder evaluated on each word. -/
theorem specWordsDecode : Obligations.SpecWordsDecode := by
  unfold Obligations.SpecWordsDecode
  decide

/-! ### A word from the fields that the decoder tests -/

theorem wordNNN_of_fields {w : Word} {t : BitVec 4} (h : fieldTop w = t) : wordNNN t (fieldNNN w) = w := by
  rw [← h, wordNNN_fields]

theorem wordXNN_of_top {w : Word} {t : BitVec 4} (h : fieldTop w = t) : wordXNN t (fieldX w) (fieldNN w) = w := by
  rw [← h, wordXNN_fields]

theorem wordXNN_of_fields {w : Word} {t : BitVec 4} {nn : Byte} (h : fieldTop w = t ∧ fieldNN w = nn) :
    wordXNN t (fieldX w) nn = w := by
  rw [← h.1, ← h.2, wordXNN_fields]

theorem wordXYN_of_fields {w : Word} {t n : BitVec 4} (h : fieldTop w = t ∧ fieldN w = n) :
    wordXYN t (fieldX w) (fieldY w) n = w := by
  rw [← h.1, ← h.2, wordXYN_fields]

/-- A row count read from a word fits its field (R81). -/
theorem wellFormed_drw_fieldN (w : Word) (x y : Reg) : (Instr.drw x y (fieldN w).toNat).wellFormed = true :=
  decide_eq_true (Nat.le_of_lt_succ (fieldN w).isLt)

/-- A word with top nibble D is the encoding of the sprite its fields name (R84). -/
theorem encode_drw_of_top {w : Word} (h : fieldTop w = 0xD) :
    encode (.drw (fieldX w) (fieldY w) (fieldN w).toNat) = w := by
  rw [encode, BitVec.ofNat_toNat, BitVec.setWidth_eq, wordXYN_of_fields ⟨h, rfl⟩]

/-! ### A word that decodes is the encoding of what it decodes to -/

/-- i is well-formed and its word is w. -/
def IsEncoding (i : Instr) (w : Word) : Prop := i.wellFormed = true ∧ encode i = w

theorem isEncoding_of_decodeFix {w : Word} {i : Instr} (h : decodeFix w = some i) : IsEncoding i w := by
  unfold decodeFix at h
  split_ifs at h
  all_goals
    cases h
    exact ⟨rfl, Eq.symm ‹w = _›⟩

theorem isEncoding_of_decodeAlu {w : Word} {i : Instr} (ht : fieldTop w = 0x8) (h : decodeAlu w = some i) :
    IsEncoding i w := by
  unfold decodeAlu at h
  split at h
  all_goals cases h
  all_goals exact ⟨rfl, wordXYN_of_fields ⟨ht, BitVec.eq_of_toNat_eq ‹(fieldN w).toNat = _›⟩⟩

theorem isEncoding_of_decodeKey {w : Word} {i : Instr} (ht : fieldTop w = 0xE) (h : decodeKey w = some i) :
    IsEncoding i w := by
  unfold decodeKey at h
  split_ifs at h
  all_goals
    cases h
    exact ⟨rfl, wordXNN_of_fields ⟨ht, ‹fieldNN w = _›⟩⟩

theorem isEncoding_of_decodeMisc {w : Word} {i : Instr} (ht : fieldTop w = 0xF) (h : decodeMisc w = some i) :
    IsEncoding i w := by
  unfold decodeMisc at h
  split_ifs at h
  all_goals
    cases h
    exact ⟨rfl, wordXNN_of_fields ⟨ht, ‹fieldNN w = _›⟩⟩

/-- By the top nibble, as the decoder reads it (R85). -/
theorem isEncoding_of_decodeWord {w : Word} {i : Instr} (h : decodeWord w = some i) : IsEncoding i w := by
  unfold decodeWord at h
  split at h
  case h_1 => exact isEncoding_of_decodeFix h
  case h_9 ht => exact isEncoding_of_decodeAlu (BitVec.eq_of_toNat_eq ht) h
  case h_15 ht => exact isEncoding_of_decodeKey (BitVec.eq_of_toNat_eq ht) h
  case h_16 ht => exact isEncoding_of_decodeMisc (BitVec.eq_of_toNat_eq ht) h
  case h_2 ht | h_3 ht | h_11 ht | h_12 ht =>
    cases h
    exact ⟨rfl, wordNNN_of_fields (BitVec.eq_of_toNat_eq ht)⟩
  case h_4 ht | h_5 ht | h_7 ht | h_8 ht | h_13 ht =>
    cases h
    exact ⟨rfl, wordXNN_of_top (BitVec.eq_of_toNat_eq ht)⟩
  case h_6 ht | h_10 ht =>
    split_ifs at h with hn
    cases h
    exact ⟨rfl, wordXYN_of_fields ⟨BitVec.eq_of_toNat_eq ht, hn⟩⟩
  case h_14 ht =>
    cases h
    exact ⟨wellFormed_drw_fieldN w _ _, encode_drw_of_top (BitVec.eq_of_toNat_eq ht)⟩
  case h_17 => cases h

/-- Settles O2: every branch of the decoder answers the instruction whose word has the fields it tested. -/
theorem decodedWordsEncodeBack : Obligations.DecodedWordsEncodeBack := by
  unfold Obligations.DecodedWordsEncodeBack
  exact fun _ _ => isEncoding_of_decodeWord

/-! ### The rows of the opcode map, by the fields their masks pick (R84) -/

theorem holds_FFFF {p : String} (m : Word) {w : Word} : (⟨p, m, 0xFFFF⟩ : MapRow).holds w = true ↔ m = w := by
  have hall : w &&& 0xFFFF = w := BitVec.and_allOnes
  rw [MapRow.holds, decide_eq_true_iff, hall, eq_comm]

theorem holds_F000 {p : String} (t : BitVec 4) {w : Word} :
    (⟨p, wordNNN t 0, 0xF000⟩ : MapRow).holds w = true ↔ fieldTop w = t := by
  rw [MapRow.holds, decide_eq_true_iff, and_F000]
  exact ⟨fun h => by simpa using congrArg fieldTop h, fun h => by rw [h]⟩

theorem holds_F00F {p : String} (t n : BitVec 4) {w : Word} :
    (⟨p, wordXYN t 0 0 n, 0xF00F⟩ : MapRow).holds w = true ↔ fieldTop w = t ∧ fieldN w = n := by
  rw [MapRow.holds, decide_eq_true_iff, and_F00F]
  exact ⟨fun h => ⟨by simpa using congrArg fieldTop h, by simpa using congrArg fieldN h⟩,
    fun ⟨ht, hn⟩ => by rw [ht, hn]⟩

theorem holds_F0FF {p : String} (t : BitVec 4) (nn : Byte) {w : Word} :
    (⟨p, wordXNN t 0 nn, 0xF0FF⟩ : MapRow).holds w = true ↔ fieldTop w = t ∧ fieldNN w = nn := by
  rw [MapRow.holds, decide_eq_true_iff, and_F0FF]
  exact ⟨fun h => ⟨by simpa using congrArg fieldTop h, by simpa using congrArg fieldNN h⟩,
    fun ⟨ht, hnn⟩ => by rw [ht, hnn]⟩

/-! ### Every word a row holds for is the encoding of an instruction of that row -/

/-- w is the encoding of an instruction whose pattern is p. -/
def EncodesPattern (p : String) (w : Word) : Prop := ∃ i, IsEncoding i w ∧ i.pattern = p

theorem encodesPattern_of_mem_opcodeMapLow (w : Word) :
    ∀ r ∈ opcodeMapLow, r.holds w = true → EncodesPattern r.pattern w := by
  simp only [opcodeMapLow, List.forall_mem_cons]
  exact
    ⟨fun h => ⟨.cls, ⟨rfl, (holds_FFFF _).1 h⟩, rfl⟩,
     fun h => ⟨.ret, ⟨rfl, (holds_FFFF _).1 h⟩, rfl⟩,
     fun h => ⟨.jp _, ⟨rfl, wordNNN_of_fields ((holds_F000 0x1).1 h)⟩, rfl⟩,
     fun h => ⟨.call _, ⟨rfl, wordNNN_of_fields ((holds_F000 0x2).1 h)⟩, rfl⟩,
     fun h => ⟨.seImm _ _, ⟨rfl, wordXNN_of_top ((holds_F000 0x3).1 h)⟩, rfl⟩,
     fun h => ⟨.sneImm _ _, ⟨rfl, wordXNN_of_top ((holds_F000 0x4).1 h)⟩, rfl⟩,
     fun h => ⟨.seReg _ _, ⟨rfl, wordXYN_of_fields ((holds_F00F 0x5 0x0).1 h)⟩, rfl⟩,
     fun h => ⟨.ldImm _ _, ⟨rfl, wordXNN_of_top ((holds_F000 0x6).1 h)⟩, rfl⟩,
     fun h => ⟨.addImm _ _, ⟨rfl, wordXNN_of_top ((holds_F000 0x7).1 h)⟩, rfl⟩,
     fun h => ⟨.ldReg _ _, ⟨rfl, wordXYN_of_fields ((holds_F00F 0x8 0x0).1 h)⟩, rfl⟩,
     fun h => ⟨.orReg _ _, ⟨rfl, wordXYN_of_fields ((holds_F00F 0x8 0x1).1 h)⟩, rfl⟩,
     fun h => ⟨.andReg _ _, ⟨rfl, wordXYN_of_fields ((holds_F00F 0x8 0x2).1 h)⟩, rfl⟩,
     fun h => ⟨.xorReg _ _, ⟨rfl, wordXYN_of_fields ((holds_F00F 0x8 0x3).1 h)⟩, rfl⟩,
     fun h => ⟨.addReg _ _, ⟨rfl, wordXYN_of_fields ((holds_F00F 0x8 0x4).1 h)⟩, rfl⟩,
     fun h => ⟨.subReg _ _, ⟨rfl, wordXYN_of_fields ((holds_F00F 0x8 0x5).1 h)⟩, rfl⟩,
     fun h => ⟨.shr _ _, ⟨rfl, wordXYN_of_fields ((holds_F00F 0x8 0x6).1 h)⟩, rfl⟩,
     fun h => ⟨.subnReg _ _, ⟨rfl, wordXYN_of_fields ((holds_F00F 0x8 0x7).1 h)⟩, rfl⟩,
     fun h => ⟨.shl _ _, ⟨rfl, wordXYN_of_fields ((holds_F00F 0x8 0xE).1 h)⟩, rfl⟩,
     fun h => ⟨.sneReg _ _, ⟨rfl, wordXYN_of_fields ((holds_F00F 0x9 0x0).1 h)⟩, rfl⟩,
     List.forall_mem_nil _⟩

theorem encodesPattern_of_mem_opcodeMapHigh (w : Word) :
    ∀ r ∈ opcodeMapHigh, r.holds w = true → EncodesPattern r.pattern w := by
  simp only [opcodeMapHigh, List.forall_mem_cons]
  exact
    ⟨fun h => ⟨.ldI _, ⟨rfl, wordNNN_of_fields ((holds_F000 0xA).1 h)⟩, rfl⟩,
     fun h => ⟨.jpV0 _, ⟨rfl, wordNNN_of_fields ((holds_F000 0xB).1 h)⟩, rfl⟩,
     fun h => ⟨.rnd _ _, ⟨rfl, wordXNN_of_top ((holds_F000 0xC).1 h)⟩, rfl⟩,
     fun h => ⟨.drw _ _ _, ⟨wellFormed_drw_fieldN w _ _, encode_drw_of_top ((holds_F000 0xD).1 h)⟩, rfl⟩,
     fun h => ⟨.skp _, ⟨rfl, wordXNN_of_fields ((holds_F0FF 0xE 0x9E).1 h)⟩, rfl⟩,
     fun h => ⟨.sknp _, ⟨rfl, wordXNN_of_fields ((holds_F0FF 0xE 0xA1).1 h)⟩, rfl⟩,
     fun h => ⟨.ldVxDt _, ⟨rfl, wordXNN_of_fields ((holds_F0FF 0xF 0x07).1 h)⟩, rfl⟩,
     fun h => ⟨.ldVxK _, ⟨rfl, wordXNN_of_fields ((holds_F0FF 0xF 0x0A).1 h)⟩, rfl⟩,
     fun h => ⟨.ldDtVx _, ⟨rfl, wordXNN_of_fields ((holds_F0FF 0xF 0x15).1 h)⟩, rfl⟩,
     fun h => ⟨.ldStVx _, ⟨rfl, wordXNN_of_fields ((holds_F0FF 0xF 0x18).1 h)⟩, rfl⟩,
     fun h => ⟨.addI _, ⟨rfl, wordXNN_of_fields ((holds_F0FF 0xF 0x1E).1 h)⟩, rfl⟩,
     fun h => ⟨.ldF _, ⟨rfl, wordXNN_of_fields ((holds_F0FF 0xF 0x29).1 h)⟩, rfl⟩,
     fun h => ⟨.ldB _, ⟨rfl, wordXNN_of_fields ((holds_F0FF 0xF 0x33).1 h)⟩, rfl⟩,
     fun h => ⟨.storeRegs _, ⟨rfl, wordXNN_of_fields ((holds_F0FF 0xF 0x55).1 h)⟩, rfl⟩,
     fun h => ⟨.loadRegs _, ⟨rfl, wordXNN_of_fields ((holds_F0FF 0xF 0x65).1 h)⟩, rfl⟩,
     List.forall_mem_nil _⟩

/-- A word a row holds for decodes to an instruction of the row's pattern. -/
theorem decodeWord_of_holds {w : Word} {r : MapRow} (hr : r ∈ opcodeMap) (h : r.holds w = true) :
    ∃ i, decodeWord w = some i ∧ i.pattern = r.pattern := by
  obtain ⟨i, ⟨hwf, rfl⟩, hp⟩ : EncodesPattern r.pattern w := by
    rcases List.mem_append.1 hr with hr | hr
    · exact encodesPattern_of_mem_opcodeMapLow w r hr h
    · exact encodesPattern_of_mem_opcodeMapHigh w r hr h
  exact ⟨i, decodeWord_encode i hwf, hp⟩

/-! ### The row of an instruction -/

/-- A row of the map with pattern p holds for w. -/
def HasRow (p : String) (w : Word) : Prop := ∃ r ∈ opcodeMap, r.holds w = true ∧ r.pattern = p

theorem hasRow_of_top {p : String} {t : BitVec 4} {w : Word} (h : fieldTop w = t)
    (hr : ⟨p, wordNNN t 0, 0xF000⟩ ∈ opcodeMap) : HasRow p w := ⟨_, hr, (holds_F000 t).2 h, rfl⟩

theorem hasRow_wordXYN {p : String} (t : BitVec 4) (x y : Reg) (n : BitVec 4)
    (hr : ⟨p, wordXYN t 0 0 n, 0xF00F⟩ ∈ opcodeMap) : HasRow p (wordXYN t x y n) :=
  ⟨_, hr, (holds_F00F t n).2 ⟨fieldTop_wordXYN t x y n, fieldN_wordXYN t x y n⟩, rfl⟩

theorem hasRow_wordXNN {p : String} (t : BitVec 4) (x : Reg) (nn : Byte)
    (hr : ⟨p, wordXNN t 0 nn, 0xF0FF⟩ ∈ opcodeMap) : HasRow p (wordXNN t x nn) :=
  ⟨_, hr, (holds_F0FF t nn).2 ⟨fieldTop_wordXNN t x nn, fieldNN_wordXNN t x nn⟩, rfl⟩

/-- By the mask of the instruction's row: the whole word, the top nibble, the top nibble and n, or the top nibble and
nn (R84). -/
theorem hasRow_encode (i : Instr) : HasRow i.pattern (encode i) := by
  cases i
  all_goals dsimp only [Instr.pattern, encode]
  case cls | ret => exact ⟨_, by decide, (holds_FFFF _).2 rfl, rfl⟩
  case jp | call | ldI | jpV0 => exact hasRow_of_top (fieldTop_wordNNN _ _) (by decide)
  case seImm | sneImm | ldImm | addImm | rnd => exact hasRow_of_top (fieldTop_wordXNN _ _ _) (by decide)
  case drw => exact hasRow_of_top (fieldTop_wordXYN _ _ _ _) (by decide)
  case seReg | ldReg | orReg | andReg | xorReg | addReg | subReg | shr | subnReg | shl | sneReg =>
    exact hasRow_wordXYN _ _ _ _ (by decide)
  case skp | sknp | ldVxDt | ldVxK | ldDtVx | ldStVx | addI | ldF | ldB | storeRegs | loadRegs =>
    exact hasRow_wordXNN _ _ _ (by decide)

/-- The patterns of the map are distinct. -/
theorem eq_of_pattern_eq : ∀ r ∈ opcodeMap, ∀ q ∈ opcodeMap, r.pattern = q.pattern → r = q := by decide

/-- Settles O3: a word is legal exactly when a row holds for it, by its instruction's row one way and by the row's
instruction the other; two rows that hold for one word have its instruction's pattern, and patterns are distinct. -/
theorem decoderFollowsOpcodeMap : Obligations.DecoderFollowsOpcodeMap := by
  unfold Obligations.DecoderFollowsOpcodeMap
  have hrow : ∀ (w : Word) (i : Instr), decodeWord w = some i → HasRow i.pattern w := by
    intro w i h
    obtain ⟨-, rfl⟩ := isEncoding_of_decodeWord h
    exact hasRow_encode i
  refine ⟨fun w => ⟨fun hnone r hr => ?_, fun hno => ?_⟩, hrow, fun w r q hr hq hrw hqw => ?_⟩
  · refine Bool.eq_false_iff.2 fun hrw => ?_
    obtain ⟨i, hi, -⟩ := decodeWord_of_holds hr hrw
    simp [hnone] at hi
  · by_contra hsome
    obtain ⟨i, hi⟩ := Option.ne_none_iff_exists'.1 hsome
    obtain ⟨r, hr, hrw, -⟩ := hrow w i hi
    simp [hno r hr] at hrw
  · obtain ⟨i, hi, hri⟩ := decodeWord_of_holds hr hrw
    obtain ⟨j, hj, hqj⟩ := decodeWord_of_holds hq hqw
    obtain rfl : i = j := Option.some.inj (hi.symm.trans hj)
    exact eq_of_pattern_eq r hr q hq (hri.symm.trans hqj)

end Sys2Proof

namespace Sys2Proof.Machine

/-! ### A TICK in RUNNING, by the word fetched (R101 to R103) -/

/-- In RUNNING, with TICK next, a step is one cycle of the state that TICK finds (R100). -/
theorem step_eq_runCycle (s u : State) (htick : s.ticksNext u) (hrun : s.run = .running) : step s = runCycle u := by
  obtain ⟨hurun, -⟩ := ticksNext_fields s u htick
  rw [step_of_ticksNext s u htick, tick, hurun, hrun]

/-- pc at most 4094 is a fetch inside memory (R101). -/
theorem fetchOutOfRange_of_le (s : State) (hpc : s.pc.toNat ≤ 4094) : s.fetchOutOfRange = false :=
  decide_eq_false (Nat.not_lt.2 hpc)

/-- A fetched word that decodes is executed on the advanced state (R102, R103). -/
theorem runCycle_of_decodes (s : State) (i : Instr) (hpc : s.pc.toNat ≤ 4094)
    (hword : decodeWord s.fetchWord = some i) : runCycle s = exec i s.advance := by
  simp [runCycle, fetchOutOfRange_of_le s hpc, hword]

/-- A fetched word that is illegal raises UnknownOpcode on the advanced state (R86, R88). -/
theorem runCycle_of_illegal (s : State) (hpc : s.pc.toNat ≤ 4094) (hword : decodeWord s.fetchWord = none) :
    runCycle s = raise .unknownOpcode s.fetchWord s.pc s.advance := by
  simp [runCycle, fetchOutOfRange_of_le s hpc, hword]

/-- Settles O8: the cycle raises on the advanced state, and raising changes the record and the run state alone. -/
theorem illegalWordRaisesUnknownOpcode : Obligations.IllegalWordRaisesUnknownOpcode := by
  unfold Obligations.IllegalWordRaisesUnknownOpcode
  intro s u htick hrun hpc hword
  obtain ⟨-, hupc, -, -, hufetch, -⟩ := ticksNext_fields s u htick
  rw [← hupc] at hpc ⊢
  rw [← hufetch] at hword ⊢
  rw [step_eq_runCycle s u htick hrun, runCycle_of_illegal u hpc hword]
  exact raise_answers .unknownOpcode u.fetchWord u.pc u.advance

/-! ### The word placed for the host (log 16) -/

/-- The host's number of an instruction word is that word. -/
theorem withFetchWord_toNat (s : State) (w : Word) : s.withFetchWord 16 w.toNat = s.placeWord w := by
  rw [State.withFetchWord, Nat.mod_eq_of_lt w.isLt, BitVec.ofNat_toNat, BitVec.setWidth_eq]

/-- The word is placed where it can be fetched. -/
theorem fetchSlot_le (s : State) : s.fetchSlot.toNat ≤ 4094 := by
  unfold State.fetchSlot
  split
  · decide
  next h => simpa [State.fetchOutOfRange] using h

/-- Where pc can be fetched from, it stays. -/
theorem fetchSlot_of_le (s : State) (hpc : s.pc.toNat ≤ 4094) : s.fetchSlot = s.pc := by
  simp [State.fetchSlot, fetchOutOfRange_of_le s hpc]

/-- Making a state ready changes the run state, the record and the waiting operations, and nothing else. -/
theorem readyToFetch_eq (s : State) : ∃ cause op addr, s.readyToFetch =
    { s with run := .running, fcause := cause, fop := op, fpc := addr,
             inbox := if s.inbox = [] then [] else .tick :: s.inbox } := by
  by_cases hrun : s.run = .running
  · exact ⟨s.fcause, s.fop, s.fpc, by rw [State.readyToFetch, if_pos hrun, ← hrun]⟩
  · exact ⟨none, 0, 0, by rw [State.readyToFetch, if_neg hrun]⟩

/-- A word written high byte first is the word read there (R52). -/
theorem readWord_writeBytes (s : State) (a : Nat) (w : Word) (hm : s.memCanonical) (ha : a ≤ 4094) :
    (s.writeBytes a [highByte w, lowByte w]).readWord a = w := by
  have hfits : a + [highByte w, lowByte w].length ≤ Config.memSize := Nat.add_le_add_right ha 2
  rw [State.readWord, readByte_writeBytes s _ _ _ hm hfits, readByte_writeBytes s _ _ _ hm hfits]
  simp

/-- The word placed is the word fetched. -/
theorem fetchWord_placeWord (s : State) (w : Word) (hm : s.memCanonical) : (s.placeWord w).fetchWord = w := by
  have hready : s.readyToFetch.memCanonical := by
    obtain ⟨_, _, _, h⟩ := readyToFetch_eq s
    rw [h]
    exact hm
  exact readWord_writeBytes s.readyToFetch s.fetchSlot.toNat w hready (fetchSlot_le s)

/-- After the placing TICK is next, and the operations that wait after it are those that waited before. -/
theorem ticksNext_placeWord (s : State) (w : Word) :
    (s.placeWord w).ticksNext { s.placeWord w with inbox := s.inbox } := by
  obtain ⟨_, _, _, h⟩ := readyToFetch_eq s
  unfold State.placeWord
  rw [h]
  by_cases hinbox : s.inbox = []
  · exact .inl ⟨if_pos hinbox, by simp [hinbox, State.writeBytes]⟩
  · exact .inr ⟨s.inbox, if_neg hinbox, rfl⟩

/-- The placing changes pc, memory, the run state, the record and the waiting operations, and nothing else. -/
theorem placeWord_fields (s : State) (w : Word) :
    (s.placeWord w).run = .running ∧ (s.placeWord w).v = s.v ∧ (s.placeWord w).i = s.i ∧
      (s.placeWord w).stack = s.stack ∧ (s.placeWord w).sp = s.sp ∧ (s.placeWord w).fb = s.fb ∧
      (s.placeWord w).keys = s.keys ∧ (s.placeWord w).dt = s.dt ∧ (s.placeWord w).st = s.st := by
  obtain ⟨_, _, _, h⟩ := readyToFetch_eq s
  unfold State.placeWord
  rw [h]
  exact ⟨rfl, rfl, rfl, rfl, rfl, rfl, rfl, rfl, rfl⟩

/-- Settles O54: the cycle after the placing fetches the word placed, and that word decodes to its instruction. -/
theorem placedWordRunsNext : Obligations.PlacedWordRunsNext := by
  unfold Obligations.PlacedWordRunsNext
  intro s i hwf hm
  rw [withFetchWord_toNat]
  have htick := ticksNext_placeWord s (encode i)
  obtain ⟨hrun, hv, hi, hstack, hsp, hfb, hkeys, hdt, hst⟩ := placeWord_fields s (encode i)
  have hword : decodeWord (s.placeWord (encode i)).fetchWord = some i := by
    rw [fetchWord_placeWord s (encode i) hm, decodeWord_encode i hwf]
  refine ⟨_, htick, ?_, hv, hi, hstack, hsp, hfb, hkeys, hdt, hst, rfl, fetchSlot_of_le s⟩
  rw [step_eq_runCycle _ _ htick hrun]
  exact runCycle_of_decodes _ i (fetchSlot_le s) hword

end Sys2Proof.Machine
end

section
/-! The family 40_cycle_and_control: what a TICK does, the jumps and skips, the call stack, and the bounds of pc and of
the return addresses (spec 40_cycle_and_control R100 to R116). -/

namespace Sys2Proof

/-! ### A number as the word of an instruction (R84) -/

/-- The number of an instruction's word stands for that instruction. -/
theorem hasWord_of_encode (k : Nat) (i : Instr) (hwf : i.wellFormed = true) (h : BitVec.ofNat 16 k = encode i) :
    Machine.HasWord k i := by
  rw [Machine.HasWord, h]
  exact decodeWord_encode i hwf

/-- The number of a word of format XNN, in the order the statements write it. -/
theorem ofNat_wordXNN (t : BitVec 4) (x : Reg) (nn : Byte) :
    BitVec.ofNat 16 (t.toNat * 4096 + 256 * x.val + nn.toNat) = wordXNN t x nn :=
  ofNat_eq_wordXNN t x nn _ (by rw [Nat.mul_comm 256])

/-- The number of a word of format XYN, in the order the statements write it. -/
theorem ofNat_wordXYN (t : BitVec 4) (x y : Reg) (n : BitVec 4) :
    BitVec.ofNat 16 (t.toNat * 4096 + 256 * x.val + 16 * y.val + n.toNat) = wordXYN t x y n :=
  ofNat_eq_wordXYN t x y n _ (by rw [Nat.mul_comm 256, Nat.mul_comm 16])

/-- 5xyn and 9xyn with n above 0 are illegal (R113, R114). -/
theorem decodeWord_wordXYN_skip (t : BitVec 4) (x y : Reg) (n : BitVec 4) (ht : t = 0x5 ∨ t = 0x9) (hn : n ≠ 0) :
    decodeWord (wordXYN t x y n) = none := by
  rcases ht with rfl | rfl <;> simpa [decodeWord] using hn

/-- With top nibble 5 or 9 a last digit in 1..15 makes the word illegal. -/
theorem decodeWord_skip_illegal (t : BitVec 4) (x y : Reg) (n : Nat) (ht : t = 0x5 ∨ t = 0x9) (hpos : 0 < n)
    (hlt : n < 16) : decodeWord (BitVec.ofNat 16 (t.toNat * 4096 + 256 * x.val + 16 * y.val + n)) = none := by
  have hn : (BitVec.ofNat 4 n).toNat = n := by rw [BitVec.toNat_ofNat, Nat.mod_eq_of_lt hlt]
  have hne : BitVec.ofNat 4 n ≠ 0 := fun h => hpos.ne' (hn ▸ congrArg BitVec.toNat h)
  have hword := ofNat_wordXYN t x y (BitVec.ofNat 4 n)
  rw [hn] at hword
  rw [hword]
  exact decodeWord_wordXYN_skip t x y _ ht hne

end Sys2Proof

namespace Sys2Proof.Machine

/-! ### Widened immediates (R83) -/

theorem addrWord_toNat (nnn : Addr) : (addrWord nnn).toNat = nnn.toNat := by
  rw [addrWord, BitVec.toNat_setWidth]
  omega

theorem byteWord_toNat (b : Byte) : (byteWord b).toNat = b.toNat := by
  rw [byteWord, BitVec.toNat_setWidth]
  omega

/-! ### The cycle (R100 to R103) -/

/-- Settles O5: tick evaluated in each run state. -/
theorem tickByRunState : Obligations.TickByRunState := by
  unfold Obligations.TickByRunState
  exact fun s => ⟨fun h => by rw [tick, h], fun h => by rw [tick, h], fun d h => by rw [tick, h],
    fun h => by rw [tick, h]⟩

/-- Settles O6: the cycle of the state that TICK finds, with its fetched word spelled as the two bytes. -/
theorem stepRunsDecodedInstruction : Obligations.StepRunsDecodedInstruction := by
  unfold Obligations.StepRunsDecodedInstruction
  intro s u i htick hrun hpc hword
  obtain ⟨-, hupc, -, -, hufetch, -⟩ := ticksNext_fields s u htick
  rw [step_eq_runCycle s u htick hrun]
  exact runCycle_of_decodes u i (hupc ▸ hpc) (hufetch ▸ hword)

/-- A pc beyond 4094 raises MemoryOutOfBounds on the state before the advance (R101). -/
theorem runCycle_of_outOfRange (s : State) (hpc : 4094 < s.pc.toNat) :
    runCycle s = raise .memoryOutOfBounds 0 s.pc s := by
  have hout : s.fetchOutOfRange = true := decide_eq_true hpc
  rw [runCycle, if_pos hout]

/-- Settles O7: the two branches of the range check, and a word of two bytes as a number. -/
theorem fetchChecksRangeAndReadsBigEndian : Obligations.FetchChecksRangeAndReadsBigEndian := by
  unfold Obligations.FetchChecksRangeAndReadsBigEndian
  intro s u htick hrun
  refine ⟨fun hpc => ?_, fun _ => wordOfBytes_toNat _ _⟩
  obtain ⟨-, hupc, -⟩ := ticksNext_fields s u htick
  rw [← hupc] at hpc ⊢
  rw [step_eq_runCycle s u htick hrun, runCycle_of_outOfRange u hpc]
  exact raise_answers .memoryOutOfBounds 0 u.pc u

/-- A cycle answers a next state: a fault is one, and so is what every meaning answers. -/
theorem runCycle_next (s : State) : ∃ t, runCycle s = .next t := by
  unfold runCycle
  split
  · exact ⟨_, rfl⟩
  · split
    · exact ⟨_, rfl⟩
    · exact exec_next _ _

/-- TICK answers a next state in every run state but UNLOADED. -/
theorem tick_answers (s : State) :
    (∃ t, tick s = .next t) ∨ (s.run = .unloaded ∧ tick s = .fault .tickBeforeLoad) := by
  obtain ⟨hunloaded, hfaulted, hawaiting, hrunning⟩ := tickByRunState s
  cases hrun : s.run with
  | unloaded => exact .inr ⟨rfl, hunloaded hrun⟩
  | faulted => exact .inl ⟨s, hfaulted hrun⟩
  | awaitingKey d => exact .inl ⟨s, hawaiting d hrun⟩
  | running =>
    rw [hrunning hrun]
    exact .inl (runCycle_next s)

/-- KEY answers a next state, with every index and in every run state. -/
theorem key_next (k : Nat) (p : Bool) (s : State) : ∃ t, key k p s = .next t := by
  unfold key
  split
  · exact ⟨_, rfl⟩
  · split <;> exact ⟨_, rfl⟩

/-- LOAD answers a next state, with every image. -/
theorem load_next (img : Option (List Byte)) (s : State) : ∃ t, load img s = .next t := by
  rcases load_answers img s with ⟨_, _, _, h⟩ | ⟨_, h⟩ <;> exact ⟨_, h⟩

/-- With TICK next, a step answers a next state or stops as TICK does. -/
theorem step_answers_of_ticksNext (s u : State) (htick : s.ticksNext u) :
    (∃ t, step s = .next t) ∨ (s.run = .unloaded ∧ (∃ v, s.ticksNext v) ∧ step s = .fault .tickBeforeLoad) := by
  obtain ⟨hurun, -⟩ := ticksNext_fields s u htick
  rw [step_of_ticksNext s u htick, ← hurun]
  exact (tick_answers u).imp_right fun ⟨hrun, hstop⟩ => ⟨hrun, ⟨u, htick⟩, hstop⟩

/-- Settles O11: by the operation that is next; only TICK can stop. -/
theorem onlyTickBeforeLoadStops : Obligations.OnlyTickBeforeLoadStops := by
  unfold Obligations.OnlyTickBeforeLoadStops
  intro s
  cases hinbox : s.inbox with
  | nil => exact step_answers_of_ticksNext s s (.inl ⟨hinbox, rfl⟩)
  | cons op rest =>
    cases op with
    | tick => exact step_answers_of_ticksNext s _ (.inr ⟨rest, hinbox, rfl⟩)
    | load img =>
      rw [step_of_inbox_cons s _ rest hinbox]
      exact .inl (load_next img _)
    | key k p =>
      rw [step_of_inbox_cons s _ rest hinbox]
      exact .inl (key_next k p _)
    | timer =>
      rw [step_of_inbox_cons s _ rest hinbox]
      exact .inl ⟨_, rfl⟩

/-! ### Jumps and skips (R109, R111 to R115) -/

/-- Settles O13: pc is the target, and setting pc changes nothing else. -/
theorem jumpSetsPc : Obligations.JumpSetsPc := by
  unfold Obligations.JumpSetsPc
  intro s nnn
  exact ⟨hasWord_of_encode _ _ rfl (ofNat_eq_wordNNN 0x1 nnn _ rfl), _, rfl, addrWord_toNat nnn, keeps_setPc s _⟩

/-- Settles O14: the sum is taken in 16 bits, wider than the address. -/
theorem jumpWithOffsetAddsV0 : Obligations.JumpWithOffsetAddsV0 := by
  unfold Obligations.JumpWithOffsetAddsV0
  intro s nnn
  refine ⟨hasWord_of_encode _ _ rfl (ofNat_eq_wordNNN 0xB nnn _ rfl), _, rfl, ?_, keeps_setPc s _⟩
  rw [BitVec.toNat_add, addrWord_toNat, byteWord_toNat]

/-- A skip on a condition adds 2 to pc where the condition holds, and changes nothing else (R111). -/
theorem skipIf_answers_of_prop (p : Prop) [Decidable p] (s : State) :
    ∃ t, skipIf (decide p) s = .next t ∧ t.pc.toNat = (if p then (s.pc.toNat + 2) % 65536 else s.pc.toNat) ∧
      Keeps { pc := true } s t := by
  simpa using skipIf_answers (decide p) s

/-- A skip on the opposite of a condition keeps pc where the condition holds (R112). -/
theorem skipIf_answers_of_not (p : Prop) [Decidable p] (s : State) :
    ∃ t, skipIf (decide ¬p) s = .next t ∧ t.pc.toNat = (if p then s.pc.toNat else (s.pc.toNat + 2) % 65536) ∧
      Keeps { pc := true } s t := by
  simpa only [ite_not] using skipIf_answers_of_prop (¬p) s

/-- Settles O15: each skip is skipIf on its condition or on the opposite of it. -/
theorem skipsAddTwoWhenConditionHolds : Obligations.SkipsAddTwoWhenConditionHolds := by
  unfold Obligations.SkipsAddTwoWhenConditionHolds
  intro s x y nn
  refine ⟨⟨?_, skipIf_answers_of_prop (s.reg x = nn) s⟩, ⟨?_, skipIf_answers_of_not (s.reg x = nn) s⟩,
    ⟨?_, skipIf_answers_of_prop (s.reg x = s.reg y) s⟩, ⟨?_, skipIf_answers_of_not (s.reg x = s.reg y) s⟩,
    fun n hpos hlt => ⟨?_, ?_⟩⟩
  · exact hasWord_of_encode _ (.seImm x nn) rfl (ofNat_wordXNN 0x3 x nn)
  · exact hasWord_of_encode _ (.sneImm x nn) rfl (ofNat_wordXNN 0x4 x nn)
  · exact hasWord_of_encode _ (.seReg x y) rfl (ofNat_wordXYN 0x5 x y 0)
  · exact hasWord_of_encode _ (.sneReg x y) rfl (ofNat_wordXYN 0x9 x y 0)
  · exact decodeWord_skip_illegal 0x5 x y n (.inl rfl) hpos hlt
  · exact decodeWord_skip_illegal 0x9 x y n (.inr rfl) hpos hlt

/-! ### Calls and returns (R106 to R108, R110) -/

/-- The state after a call with a slot free: the advanced pc in slot sp, one entry more, pc at the target (R110). -/
def State.afterCall (s : State) (nnn : Addr) (h : s.sp.val < 16) : State :=
  { s with stack := s.stack.set s.sp.val s.pc h, sp := ⟨s.sp.val + 1, by omega⟩, pc := addrWord nnn }

/-- The state after a return with an entry left: pc at the newest return address, one entry less (R108). -/
def State.afterRet (s : State) (_h : s.sp.val ≠ 0) : State :=
  { s with pc := s.stack[s.sp.val - 1]'(by omega), sp := ⟨s.sp.val - 1, by omega⟩ }

theorem exec_call_of_lt (nnn : Addr) (s : State) (h : s.sp.val < 16) :
    exec (.call nnn) s = .next (s.afterCall nnn h) := by
  rw [exec, execCall, State.push_of_lt s _ h]
  rfl

theorem exec_call_of_full (nnn : Addr) (s : State) (h : s.sp.val = 16) :
    exec (.call nnn) s = raiseAt (.call nnn) .stackOverflow s := by
  rw [exec, execCall, (State.push_eq_none s _).2 h]

theorem exec_ret_of_pos (s : State) (h : s.sp.val ≠ 0) : exec .ret s = .next (s.afterRet h) := by
  rw [exec, execRet, State.pop_of_pos s h]
  rfl

theorem exec_ret_of_empty (s : State) (h : s.sp.val = 0) : exec .ret s = raiseAt .ret .stackUnderflow s := by
  rw [exec, execRet, (State.pop_eq_none s).2 h]

/-- A call writes one slot, sp and pc. -/
theorem keeps_afterCall (s : State) (nnn : Addr) (h : s.sp.val < 16) :
    Keeps { pc := true, sp := true, slots := [⟨s.sp.val, h⟩] } s (s.afterCall nnn h) := by
  constructor
  case slots =>
    intro k hk
    have hne : s.sp.val ≠ k.val := fun heq => hk (List.mem_singleton.2 (Fin.ext heq.symm))
    exact Vector.getElem_set_ne h k.isLt hne
  case pc | sp => exact nofun
  case record => exact fun _ => ⟨rfl, rfl, rfl⟩
  all_goals
    intros
    rfl

/-- A return writes sp and pc; the slot it read stays. -/
theorem keeps_afterRet (s : State) (h : s.sp.val ≠ 0) : Keeps { pc := true, sp := true } s (s.afterRet h) := by
  constructor
  case pc | sp => exact nofun
  case record => exact fun _ => ⟨rfl, rfl, rfl⟩
  all_goals
    intros
    rfl

/-- Settles O16: below 16 the call writes as State.afterCall, at 16 it raises with its own word. -/
theorem callPushesAdvancedPc : Obligations.CallPushesAdvancedPc := by
  unfold Obligations.CallPushesAdvancedPc
  intro s nnn
  have hword : BitVec.ofNat 16 (0x2000 + nnn.toNat) = encode (.call nnn) := ofNat_eq_wordNNN 0x2 nnn _ rfl
  refine ⟨hasWord_of_encode _ _ rfl hword, fun hlt => ?_, fun hfull => ?_⟩
  · exact ⟨_, exec_call_of_lt nnn s hlt, Vector.getElem_set_self _, rfl, addrWord_toNat nnn, keeps_afterCall s nnn hlt⟩
  · rw [exec_call_of_full nnn s hfull, hword]
    exact raiseAt_answers (.call nnn) .stackOverflow s

/-- Settles O17: above 0 the return writes as State.afterRet, at 0 it raises with its own word. -/
theorem returnPopsIntoPc : Obligations.ReturnPopsIntoPc := by
  unfold Obligations.ReturnPopsIntoPc
  intro s
  refine ⟨hasWord_of_encode _ .ret rfl rfl, fun hpos => ?_, fun hempty => ?_⟩
  · have hne : s.sp.val ≠ 0 := Nat.ne_of_gt hpos
    exact ⟨_, exec_ret_of_pos s hne, rfl, rfl, keeps_afterRet s hne⟩
  · rw [exec_ret_of_empty s hempty]
    exact raiseAt_answers .ret .stackUnderflow s

/-! ### Nested calls (R108, R110) -/

/-- Settles O18: a return finds in slot sp - 1 the pc that the call pushed there. -/
theorem returnUndoesCall : Obligations.ReturnUndoesCall := by
  unfold Obligations.ReturnUndoesCall
  intro s nnn hlt
  refine ⟨_, exec_call_of_lt nnn s hlt, fun m hsp hstack => ?_⟩
  have hm : m.sp.val = s.sp.val + 1 := congrArg Fin.val hsp
  have hpos : m.sp.val ≠ 0 := by omega
  refine ⟨_, exec_ret_of_pos m hpos, ?_, ?_⟩
  · simp [State.afterRet, State.afterCall, hstack, hm]
  · exact Fin.ext (Nat.sub_eq_of_eq_add hm)

/-- Calls with a slot free for each succeed one after another: each adds one to sp, and none changes the run state. -/
theorem execAll_calls (targets : List Addr) (s : State) (h : s.sp.val + targets.length ≤ 16) :
    ∃ t, execAll (targets.map .call) s = .next t ∧ t.run = s.run ∧ t.sp.val = s.sp.val + targets.length := by
  induction targets generalizing s with
  | nil => exact ⟨s, rfl, rfl, rfl⟩
  | cons nnn rest ih =>
    rw [List.length_cons] at h ⊢
    have hlt : s.sp.val < 16 := by omega
    have hsp : (s.afterCall nnn hlt).sp.val = s.sp.val + 1 := rfl
    obtain ⟨t, ht, hrun, htsp⟩ := ih (s.afterCall nnn hlt) (by omega)
    refine ⟨t, ?_, hrun, by omega⟩
    rw [List.map_cons, execAll, exec_call_of_lt nnn s hlt]
    exact ht

/-- Settles O19: the calls that fill the stack succeed, and at sp = 16 one more raises. -/
theorem sixteenNestedCallsThenOverflow : Obligations.SixteenNestedCallsThenOverflow := by
  unfold Obligations.SixteenNestedCallsThenOverflow
  intro targets last s hrun hfill
  obtain ⟨t, ht, htrun, htsp⟩ := execAll_calls targets s hfill.le
  exact ⟨t, ht, htrun.trans hrun, htsp.trans hfill, _, exec_call_of_full last t (htsp.trans hfill), rfl, rfl, rfl⟩

/-! ### The bounds of pc and of the return addresses (R116) -/

/-- Every live stack entry is in 2..4096: the second half of State.pcBounded. -/
def State.stackBounded (s : State) : Prop :=
  ∀ k : Fin 16, k.val < s.sp.val → 2 ≤ s.stack[k].toNat ∧ s.stack[k].toNat ≤ 4096

/-- A call pushes the pc it is executed with, so the bounds of the stack hold on if that pc is in 2..4096. -/
theorem stackBounded_afterCall (s : State) (nnn : Addr) (h : s.sp.val < 16) (hs : s.stackBounded)
    (hpc : 2 ≤ s.pc.toNat ∧ s.pc.toNat ≤ 4096) : (s.afterCall nnn h).stackBounded := by
  intro k hk
  by_cases hnew : k.val = s.sp.val
  · have hslot : (s.afterCall nnn h).stack[k] = s.pc := by simp [State.afterCall, hnew]
    rw [hslot]
    exact hpc
  · have hslot : (s.afterCall nnn h).stack[k] = s.stack[k] :=
      (keeps_afterCall s nnn h).slots k fun hmem => hnew (congrArg Fin.val (List.mem_singleton.1 hmem))
    rw [hslot]
    exact hs k (lt_of_le_of_ne (Nat.le_of_lt_succ hk) hnew)

/-- A return leaves fewer entries live. -/
theorem stackBounded_afterRet (s : State) (h : s.sp.val ≠ 0) (hs : s.stackBounded) : (s.afterRet h).stackBounded :=
  fun k hk => hs k (lt_of_lt_of_le hk (Nat.sub_le _ _))

/-- A return goes to a live stack entry. -/
theorem afterRet_pc_le (s : State) (h : s.sp.val ≠ 0) (hs : s.stackBounded) : (s.afterRet h).pc.toNat ≤ 4096 :=
  (hs ⟨s.sp.val - 1, by omega⟩ (Nat.sub_one_lt h)).2

/-- Where control can be after a meaning executed in s, and what became of the stack: all the ways of R105 to R115. -/
inductive ControlFlow (s : State) : State → Prop
  | faulted (t : State) (run : t.run = .faulted) : ControlFlow s t
  | sequential (t : State) (pc : t.pc = s.pc ∨ t.pc = s.pc + 2) (stack : t.stack = s.stack) (sp : t.sp = s.sp) :
      ControlFlow s t
  | jump (nnn : Addr) (offset : Byte) (t : State) (pc : t.pc = addrWord nnn + byteWord offset)
      (stack : t.stack = s.stack) (sp : t.sp = s.sp) : ControlFlow s t
  | call (nnn : Addr) (h : s.sp.val < 16) : ControlFlow s (s.afterCall nnn h)
  | ret (h : s.sp.val ≠ 0) : ControlFlow s (s.afterRet h)

theorem controlFlow_raiseAt (i : Instr) (k : ErrorKind) (s t : State) (h : raiseAt i k s = .next t) :
    ControlFlow s t := by
  cases h
  exact .faulted _ rfl

theorem controlFlow_skipIf (c : Bool) (s t : State) (h : skipIf c s = .next t) : ControlFlow s t := by
  rw [skipIf_next] at h
  cases h
  cases c
  · exact .sequential s (.inl rfl) rfl rfl
  · exact .sequential s.skip (.inr rfl) rfl rfl

/-- Every meaning leaves control in one of these ways. -/
theorem controlFlow_exec (i : Instr) (s t : State) (h : exec i s = .next t) : ControlFlow s t := by
  cases i
  case ret =>
    by_cases hs : s.sp.val = 0
    · rw [exec_ret_of_empty s hs] at h
      exact controlFlow_raiseAt _ _ s t h
    · rw [exec_ret_of_pos s hs] at h
      cases h
      exact .ret hs
  case call nnn =>
    by_cases hs : s.sp.val = 16
    · rw [exec_call_of_full nnn s hs] at h
      exact controlFlow_raiseAt _ _ s t h
    · rw [exec_call_of_lt nnn s (by omega)] at h
      cases h
      exact .call nnn _
  case jp nnn =>
    cases h
    exact .jump nnn 0 _ (BitVec.add_zero _).symm rfl rfl
  case jpV0 nnn =>
    cases h
    exact .jump nnn (s.reg 0) _ rfl rfl rfl
  case seImm | sneImm | seReg | sneReg => exact controlFlow_skipIf _ s t h
  case skp | sknp =>
    simp only [exec, execSkp, execSknp] at h
    split at h
    · exact controlFlow_raiseAt _ _ s t h
    · exact controlFlow_skipIf _ s t h
  case drw | ldB | storeRegs | loadRegs =>
    simp only [exec, execDrw, execLdB, execStoreRegs, execLoadRegs] at h
    split at h
    · cases h
      exact .sequential _ (.inl (by simp)) (by simp) (by simp)
    · exact controlFlow_raiseAt _ _ s t h
  all_goals
    cases h
    exact .sequential _ (.inl rfl) rfl rfl

/-- With the stack unchanged its bounds hold on. -/
theorem stackBounded_congr (s t : State) (hs : s.stackBounded) (hstack : t.stack = s.stack) (hsp : t.sp = s.sp) :
    t.stackBounded := by
  unfold State.stackBounded
  rw [hstack, hsp]
  exact hs

/-- The bounds hold on while pc and the stack are unchanged and the core does not come to life. -/
theorem pcBounded_congr (s t : State) (hs : s.pcBounded) (hlive : t.live → s.live) (hpc : t.pc = s.pc)
    (hstack : t.stack = s.stack) (hsp : t.sp = s.sp) : t.pcBounded := by
  intro hl
  obtain ⟨hspc, hsstack⟩ := hs (hlive hl)
  exact ⟨hpc ▸ hspc, stackBounded_congr s t hsstack hstack hsp⟩

/-- A faulted core neither runs nor waits, so the bounds say nothing of it. -/
theorem pcBounded_of_faulted (s : State) (h : s.run = .faulted) : s.pcBounded := by
  rintro (hr | ⟨d, hr⟩) <;> simp [h] at hr

/-- A LOAD leaves pc at 512 and no live entry (R224). -/
theorem pcBounded_loaded (s : State) (bytes : List Byte) : (s.loaded bytes).pcBounded := by
  have hpc : (s.loaded bytes).pc.toNat = 512 := rfl
  refine fun _ => ⟨by omega, fun k hk => ?_⟩
  exact absurd hk (Nat.not_lt_zero k.val)

/-- From an advanced pc every way of control meets the bounds: an entry pushed is in 2..4096, a skip reaches 4098, a jump
4095 + 255, and a return an entry. -/
theorem pcBounded_of_controlFlow (s t : State) (hflow : ControlFlow s t) (hs : s.stackBounded)
    (hpc : 2 ≤ s.pc.toNat ∧ s.pc.toNat ≤ 4096) : t.pcBounded := by
  cases hflow with
  | faulted t run => exact pcBounded_of_faulted t run
  | sequential t pc stack sp =>
    refine fun _ => ⟨?_, stackBounded_congr s t hs stack sp⟩
    rcases pc with pc | pc
    · rw [pc]
      omega
    · have hadd : (s.pc + 2).toNat = (s.pc.toNat + 2) % 65536 := BitVec.toNat_add _ _
      rw [pc, hadd]
      omega
  | jump nnn offset t pc stack sp =>
    refine fun _ => ⟨?_, stackBounded_congr s t hs stack sp⟩
    rw [pc, BitVec.toNat_add, addrWord_toNat, byteWord_toNat]
    omega
  | call nnn h =>
    refine fun _ => ⟨?_, stackBounded_afterCall s nnn h hs hpc⟩
    have htarget : (s.afterCall nnn h).pc.toNat = nnn.toNat := addrWord_toNat nnn
    omega
  | ret h =>
    exact fun _ => ⟨(afterRet_pc_le s h hs).trans (by decide), stackBounded_afterRet s h hs⟩

/-- A fetch at 4094 or below leaves an advanced pc in 2..4096 (R102). -/
theorem advance_pc_bounds (s : State) (h : s.pc.toNat ≤ 4094) :
    2 ≤ s.advance.pc.toNat ∧ s.advance.pc.toNat ≤ 4096 := by
  have hadd : s.advance.pc.toNat = (s.pc.toNat + 2) % 65536 := BitVec.toNat_add _ _
  omega

/-- A key event changes neither pc nor the stack, and brings no core to life. -/
theorem keyEvent_control (s : State) (k : Fin 16) (p : Bool) :
    (s.keyEvent k p).pc = s.pc ∧ (s.keyEvent k p).stack = s.stack ∧ (s.keyEvent k p).sp = s.sp ∧
      ((s.keyEvent k p).live → s.live) := by
  unfold State.keyEvent
  split
  · exact ⟨rfl, rfl, rfl, id⟩
  · exact ⟨rfl, rfl, rfl, id⟩
  · exact ⟨rfl, rfl, rfl, id⟩
  next d hrun => split <;> exact ⟨rfl, rfl, rfl, fun _ => .inr ⟨d, hrun⟩⟩

/-- A timer tick changes neither pc nor the stack nor the run state. -/
theorem timerTick_control (s : State) :
    s.timerTick.pc = s.pc ∧ s.timerTick.stack = s.stack ∧ s.timerTick.sp = s.sp ∧ s.timerTick.run = s.run := by
  unfold State.timerTick
  split <;> exact ⟨rfl, rfl, rfl, rfl⟩

/-- Settles O58: an executed instruction starts from an advanced pc in 2..4096 and leaves control in one of the ways of
ControlFlow; LOAD empties the stack; a fault ends the claim; nothing else writes pc or the stack. -/
theorem pcAndStackStayBounded : Obligations.PcAndStackStayBounded := by
  unfold Obligations.PcAndStackStayBounded
  apply step_preserves State.pcBounded
  case served => exact fun _ _ hs => hs
  case executed =>
    intro i s t hs hrun hpc h
    obtain ⟨-, hstack⟩ := hs (.inl hrun)
    exact pcBounded_of_controlFlow s.advance t (controlFlow_exec i _ t h) hstack (advance_pc_bounds s hpc)
  case latched => exact fun _ _ _ _ _ _ => pcBounded_of_faulted _ rfl
  case advancedLatched => exact fun _ _ _ _ => pcBounded_of_faulted _ rfl
  case loaded => exact fun s bytes _ => pcBounded_loaded s bytes
  case keyed =>
    intro s k p hs
    obtain ⟨hpc, hstack, hsp, hlive⟩ := keyEvent_control s k p
    exact pcBounded_congr s _ hs hlive hpc hstack hsp
  case timed =>
    intro s hs
    obtain ⟨hpc, hstack, hsp, hrun⟩ := timerTick_control s
    refine pcBounded_congr s _ hs (fun hl => ?_) hpc hstack hsp
    rwa [State.live, hrun] at hl

end Sys2Proof.Machine
end

section
/-! The family 41_alu: the register, arithmetic and logic instructions, the flags they set, and the masked random byte
(spec 41_alu R130 to R144). -/

namespace Sys2Proof.Machine

/-! ### The words of the family 8xyn (R84) -/

/-- The number 0x8xyn, with its last digit added first as the statements write it, is the word of the instruction that
encodes to those four digits. -/
theorem hasWord_8xyn (x y : Reg) (n : BitVec 4) (i : Instr) (hwf : i.wellFormed = true)
    (henc : encode i = wordXYN 0x8 x y n) : HasWord (0x8000 + n.toNat + 256 * x.val + 16 * y.val) i := by
  refine hasWord_of_encode _ i hwf ?_
  rw [henc, ← ofNat_wordXYN 0x8 x y n, Nat.add_right_comm 0x8000, Nat.add_right_comm _ n.toNat]
  rfl

/-! ### The result and the flag after setFlagThenReg (R104) -/

/-- The result stands in Vx, with x = F too. -/
theorem State.reg_setFlagThenReg_same (s : State) (f : Bool) (x : Reg) (b : Byte) :
    (s.setFlagThenReg f x b).reg x = b := State.reg_setReg_same _ x b

/-- The flag stands in VF unless the result was written there. -/
theorem State.reg_setFlagThenReg_vf (s : State) (f : Bool) {x : Reg} (b : Byte) (hx : x ≠ vf) :
    (s.setFlagThenReg f x b).reg vf = flagByte f := by
  rw [State.reg_setFlagThenReg, if_neg hx.symm, if_pos rfl]

/-! ### The flags as numbers (R131) -/

theorem flagByte_carryOut_toNat (a b : Byte) :
    (flagByte (carryOut a b)).toNat = if a.toNat + b.toNat > 255 then 1 else 0 := by
  simp only [flagByte_toNat, carryOut, decide_eq_true_eq]

theorem flagByte_noBorrow_toNat (a b : Byte) :
    (flagByte (noBorrow a b)).toNat = if b.toNat > a.toNat then 0 else 1 := by
  simp only [flagByte_toNat, noBorrow, decide_eq_true_eq, ite_not]

/-- A bit of a byte, put into VF, is a binary digit of its number. -/
theorem flagByte_getLsbD_toNat (a : Byte) (k : Nat) : (flagByte (a.getLsbD k)).toNat = a.toNat / 2 ^ k % 2 := by
  rw [flagByte_toNat, BitVec.getLsbD, ← Nat.toNat_testBit]
  cases a.toNat.testBit k <;> rfl

theorem flagByte_lowBit_toNat (a : Byte) : (flagByte (lowBit a)).toNat = a.toNat % 2 := by
  rw [lowBit, flagByte_getLsbD_toNat, Nat.pow_zero, Nat.div_one]

/-- The highest digit of a byte needs no reduction mod 2. -/
theorem flagByte_highBit_toNat (a : Byte) : (flagByte (highBit a)).toNat = a.toNat / 128 := by
  rw [highBit, flagByte_getLsbD_toNat]
  omega

/-! ### The results as numbers (R139 to R142) -/

/-- A difference of bytes is the difference of the integers mod 256. -/
theorem sub_toNat_int (a b : Byte) : ((a - b).toNat : Int) = ((a.toNat : Int) - b.toNat) % 256 := by
  rw [BitVec.toNat_sub]
  omega

theorem ushiftRight_one_toNat (a : Byte) : (a >>> 1).toNat = a.toNat / 2 := by
  rw [BitVec.toNat_ushiftRight, Nat.shiftRight_one]

theorem shiftLeft_one_toNat (a : Byte) : (a <<< 1).toNat = a.toNat * 2 % 256 := by
  rw [BitVec.toNat_shiftLeft, Nat.shiftLeft_eq, Nat.pow_one]

/-! ### One register written, no flag (R132 to R137) -/

/-- Settles O20: each of the six writes Vx alone, so what is left to say is the value written. -/
theorem plainRegisterInstructions : Obligations.PlainRegisterInstructions := by
  unfold Obligations.PlainRegisterInstructions
  intro s x y nn
  refine ⟨⟨?_, _, rfl, ?_, keeps_setReg s x _⟩, ⟨?_, _, rfl, ?_, keeps_setReg s x _⟩,
    ⟨?_, _, rfl, ?_, keeps_setReg s x _⟩, ⟨?_, _, rfl, fun k _ => ?_, keeps_setReg s x _⟩,
    ⟨?_, _, rfl, fun k _ => ?_, keeps_setReg s x _⟩, ⟨?_, _, rfl, fun k _ => ?_, keeps_setReg s x _⟩⟩
  · exact hasWord_of_encode _ (.ldImm x nn) rfl (ofNat_wordXNN 0x6 x nn)
  · exact State.reg_setReg_same s x nn
  · exact hasWord_of_encode _ (.addImm x nn) rfl (ofNat_wordXNN 0x7 x nn)
  · rw [State.reg_setReg_same, BitVec.toNat_add]
  · exact hasWord_8xyn x y 0x0 (.ldReg x y) rfl rfl
  · exact State.reg_setReg_same s x (s.reg y)
  · exact hasWord_8xyn x y 0x1 (.orReg x y) rfl rfl
  · rw [State.reg_setReg_same, BitVec.getLsbD_or]
  · exact hasWord_8xyn x y 0x2 (.andReg x y) rfl rfl
  · rw [State.reg_setReg_same, BitVec.getLsbD_and]
  · exact hasWord_8xyn x y 0x3 (.xorReg x y) rfl rfl
  · rw [State.reg_setReg_same, BitVec.getLsbD_xor]

/-! ### A flag, then the result (R138 to R142) -/

/-- Settles O21: the sum in Vx, and the carry in VF where the sum is not written there. -/
theorem addSetsCarry : Obligations.AddSetsCarry := by
  unfold Obligations.AddSetsCarry
  intro s x y
  refine ⟨hasWord_8xyn x y 0x4 (.addReg x y) rfl rfl, _, rfl, ?_, fun hx => ?_, keeps_setFlagThenReg s _ x _⟩
  · rw [State.reg_setFlagThenReg_same, BitVec.toNat_add]
  · rw [State.reg_setFlagThenReg_vf s _ _ hx, flagByte_carryOut_toNat]

/-- A subtraction a - b into Vx, whichever registers a and b come from: the difference mod 256, and VF 0 on a borrow. -/
theorem subtraction_answers (s : State) (x : Reg) (a b : Byte) :
    ∃ t, (.next (s.setFlagThenReg (noBorrow a b) x (a - b)) : Result) = .next t ∧
      ((t.reg x).toNat : Int) = ((a.toNat : Int) - b.toNat) % 256 ∧
      (x ≠ vf → (t.reg vf).toNat = if b.toNat > a.toNat then 0 else 1) ∧ Keeps { regs := [x, vf] } s t := by
  refine ⟨_, rfl, ?_, fun hx => ?_, keeps_setFlagThenReg s _ x _⟩
  · rw [State.reg_setFlagThenReg_same, sub_toNat_int]
  · rw [State.reg_setFlagThenReg_vf s _ _ hx, flagByte_noBorrow_toNat]

/-- Settles O22: 8xy7 is 8xy5 with the operands exchanged. -/
theorem subtractionsClearFlagOnBorrow : Obligations.SubtractionsClearFlagOnBorrow := by
  unfold Obligations.SubtractionsClearFlagOnBorrow
  intro s x y
  exact ⟨⟨hasWord_8xyn x y 0x5 (.subReg x y) rfl rfl, subtraction_answers s x (s.reg x) (s.reg y)⟩,
    ⟨hasWord_8xyn x y 0x7 (.subnReg x y) rfl rfl, subtraction_answers s x (s.reg y) (s.reg x)⟩⟩

/-- Settles O23: the bit shifted out is the lowest or the highest binary digit of the old Vx; no clause reads Vy. -/
theorem shiftsMoveOneBitInPlace : Obligations.ShiftsMoveOneBitInPlace := by
  unfold Obligations.ShiftsMoveOneBitInPlace
  intro s x y
  refine ⟨⟨hasWord_8xyn x y 0x6 (.shr x y) rfl rfl, _, rfl, ?_, fun hx => ?_, keeps_setFlagThenReg s _ x _⟩,
    ⟨hasWord_8xyn x y 0xE (.shl x y) rfl rfl, _, rfl, ?_, fun hx => ?_, keeps_setFlagThenReg s _ x _⟩⟩
  · rw [State.reg_setFlagThenReg_same, ushiftRight_one_toNat]
  · rw [State.reg_setFlagThenReg_vf s _ _ hx, flagByte_lowBit_toNat]
  · rw [State.reg_setFlagThenReg_same, shiftLeft_one_toNat]
  · rw [State.reg_setFlagThenReg_vf s _ _ hx, flagByte_highBit_toNat]

/-! ### The masked random byte (R143, R144) -/

/-- Counting a random byte as consumed changes the count only, whatever changed before it. -/
theorem Keeps.setDraws {w : Writes} {s t : State} (h : Keeps w s t) (n : Nat) :
    Keeps { w with draws := true } s { t with draws := n } :=
  { h with draws := nofun }

/-- Settles O24: Vx is the free byte at the count under the mask, and the count goes up by one. -/
theorem randomByteIsMasked : Obligations.RandomByteIsMasked := by
  unfold Obligations.RandomByteIsMasked
  intro s x nn
  have hresult : State.reg { s.setReg x (Config.randomByte s.draws &&& nn) with draws := s.draws + 1 } x =
      Config.randomByte s.draws &&& nn := State.reg_setReg_same s x _
  refine ⟨hasWord_of_encode _ (.rnd x nn) rfl (ofNat_wordXNN 0xC x nn), _, rfl, fun k _ => ?_, fun hnn => ?_, rfl,
    (keeps_setReg s x _).setDraws _⟩
  · rw [hresult, BitVec.getLsbD_and]
  · rw [hresult, hnn]
    exact BitVec.and_zero

end Sys2Proof.Machine
end

section
/-! The family 42_index_and_memory: what writes I, the decimal digits of a byte, and the block moves between registers
and memory (spec 42_index_and_memory R160 to R167; 20_memory R60). -/

namespace Sys2Proof.Machine

/-! ### The words of the family Fxnn (R84) -/

/-- The number 0xFxnn, with its function code added first as the statements write it, is a word of format XNN. -/
theorem ofNat_wordFxnn (x : Reg) (nn : Byte) :
    BitVec.ofNat 16 (0xF000 + nn.toNat + 256 * x.val) = wordXNN 0xF x nn := by
  rw [Nat.add_right_comm]
  exact ofNat_wordXNN 0xF x nn

/-! ### Writing I -/

/-- Writing I changes I only, whatever changed before it. -/
theorem Keeps.setIndex {w : Writes} {s t : State} (h : Keeps w s t) (a : Word) :
    Keeps { w with index := true } s { t with i := a } :=
  { h with index := nofun }

theorem keeps_setIndex (s : State) (a : Word) : Keeps { index := true } s { s with i := a } :=
  (Keeps.refl {} s).setIndex a

/-- After a block inside memory the new I is at most 4096: no wrap (R164). -/
theorem State.bumpIndex_i_toNat (s : State) (x : Reg) (hx : s.ea x.val ≤ 4095) :
    (s.bumpIndex x).i.toNat = s.i.toNat + x.val + 1 := by
  have hsum : s.i.toNat + x.val ≤ 4095 := hx
  rw [State.bumpIndex_i, BitVec.toNat_add, BitVec.toNat_ofNat]
  omega

/-- Settles O25: nnn fits 12 bits and five times a byte fits 16, so neither value is reduced. -/
theorem indexLoads : Obligations.IndexLoads := by
  unfold Obligations.IndexLoads
  intro s x nnn
  refine ⟨⟨hasWord_of_encode _ (.ldI nnn) rfl (ofNat_eq_wordNNN 0xA nnn _ rfl), _, rfl, addrWord_toNat nnn,
    keeps_setIndex s _⟩, ⟨hasWord_of_encode _ (.ldF x) rfl (ofNat_wordFxnn x 0x29), _, rfl, ?_, keeps_setIndex s _⟩⟩
  have hbyte := (s.reg x).isLt
  exact Nat.mod_eq_of_lt (show (s.reg x).toNat * 5 < 2 ^ 16 by omega)

/-- Settles O26: the addend and the flag are taken from the state before VF is written. -/
theorem addToIndexFlagsRange : Obligations.AddToIndexFlagsRange := by
  unfold Obligations.AddToIndexFlagsRange
  intro s x
  refine ⟨hasWord_of_encode _ (.addI x) rfl (ofNat_wordFxnn x 0x1E), _, rfl, ?_, ?_, (keeps_setFlag s _).setIndex _⟩
  · rw [BitVec.toNat_add, byteWord_toNat]
  · have hflag : State.reg { s.setFlag (indexBeyond s.i (s.reg x)) with i := s.i + byteWord (s.reg x) } vf =
        flagByte (indexBeyond s.i (s.reg x)) := State.reg_setReg_same s vf _
    rw [hflag, flagByte_toNat]
    simp only [indexBeyond, decide_eq_true_eq]

/-! ### The range check of a block of k + 1 cells at I (R60) -/

/-- A block whose last cell I + k exists is accessed. -/
theorem blockAccess_of_le (i : Instr) (s : State) (k : Nat) (r : Result) (hk : s.ea k ≤ 4095) :
    (if s.blockInRange (k + 1) then r else raiseAt i .memoryOutOfBounds s) = r := by
  rw [State.blockInRange_succ, if_pos (decide_eq_true hk)]

/-- A block whose last cell I + k does not exist raises MemoryOutOfBounds with the instruction's word, and nothing else
changes. -/
theorem blockAccess_raises (i : Instr) (s : State) (k : Nat) (r : Result) (hk : 4095 < s.ea k) :
    ∃ t, (if s.blockInRange (k + 1) then r else raiseAt i .memoryOutOfBounds s) = .next t ∧
      Raised .memoryOutOfBounds (encode i) (s.pc - 2) s t := by
  rw [State.blockInRange_succ, if_neg (by simpa using hk)]
  exact raiseAt_answers i .memoryOutOfBounds s

/-! ### Bytes written from I up (R53, R166) -/

/-- The bytes change the cells I, I + 1, ... and nothing else. -/
theorem keeps_writeBytes_at_index (s : State) (bs : List Byte) (hm : s.memCanonical)
    (hfits : s.ea bs.length ≤ Config.memSize) :
    Keeps { cells := (List.range bs.length).map s.ea } s (s.writeBytes (s.ea 0) bs) :=
  keeps_writeBytes s (s.ea 0) bs hm hfits

/-- The cell I + k holds the k-th byte. -/
theorem readByte_writeBytes_at_index (s : State) (bs : List Byte) (hm : s.memCanonical)
    (hfits : s.ea bs.length ≤ Config.memSize) (k : Nat) (hk : k < bs.length) :
    (s.writeBytes (s.ea 0) bs).readByte (s.ea k) = bs[k] := by
  have hoffset : s.ea k - s.ea 0 = k := Nat.add_sub_cancel_left ..
  have hinside : s.ea 0 ≤ s.ea k ∧ s.ea k - s.ea 0 < bs.length :=
    ⟨Nat.add_le_add_left (Nat.zero_le k) _, hoffset.symm ▸ hk⟩
  rw [readByte_writeBytes s (s.ea 0) _ bs hm hfits, dif_pos hinside]
  simp only [hoffset]

/-! ### Fx33 (R163) -/

/-- Settles O27: the three bytes written are the digits, each small enough for a byte. -/
theorem bcdStoresThreeDigits : Obligations.BcdStoresThreeDigits := by
  unfold Obligations.BcdStoresThreeDigits
  intro s x
  have hword : BitVec.ofNat 16 (0xF033 + 256 * x.val) = encode (.ldB x) := ofNat_wordFxnn x 0x33
  refine ⟨hasWord_of_encode _ _ rfl hword, fun hm hin => ?_, fun hout => ?_⟩
  · have hfits : s.ea (bcdDigits (s.reg x)).length ≤ Config.memSize := Nat.succ_le_succ hin
    have hread := readByte_writeBytes_at_index s (bcdDigits (s.reg x)) hm hfits
    have hbyte := (s.reg x).isLt
    refine ⟨_, blockAccess_of_le (.ldB x) s 2 _ hin, ?_, ?_, ?_, keeps_writeBytes_at_index s _ hm hfits⟩
    · rw [hread 0 (by decide : 0 < 3)]
      exact Nat.mod_eq_of_lt (by omega)
    · rw [hread 1 (by decide : 1 < 3)]
      exact Nat.mod_eq_of_lt (by omega)
    · rw [hread 2 (by decide : 2 < 3)]
      exact Nat.mod_eq_of_lt (by omega)
  · rw [hword]
    exact blockAccess_raises (.ldB x) s 2 _ hout

/-! ### Fx55 and Fx65 (R164, R165) -/

/-- Settles O28: the bytes written from I up are V0..Vx, and I moves past them. -/
theorem storeRegistersAtIndex : Obligations.StoreRegistersAtIndex := by
  unfold Obligations.StoreRegistersAtIndex
  intro s x
  have hword : BitVec.ofNat 16 (0xF055 + 256 * x.val) = encode (.storeRegs x) := ofNat_wordFxnn x 0x55
  refine ⟨hasWord_of_encode _ _ rfl hword, fun hm hin => ?_, fun hout => ?_⟩
  · have hkeeps := keeps_writeBytes_at_index s (s.regsUpTo x) hm
    rw [State.length_regsUpTo] at hkeeps
    exact ⟨_, exec_storeRegs_of_inRange s x hin, fun k hk => readByte_writeBytes_regsUpTo s x k hm hin hk,
      State.bumpIndex_i_toNat _ x hin, (hkeeps (Nat.succ_le_succ hin)).setIndex _⟩
  · rw [hword]
    exact blockAccess_raises (.storeRegs x) s x.val _ hout

/-- Loading writes the registers 0..x and nothing else. -/
theorem keeps_loadRegs (s : State) (x : Reg) :
    Keeps { regs := (List.finRange 16).filter (· ≤ x) } s (s.loadRegs x) := by
  constructor
  case regs =>
    intro r hr
    have hgt : ¬ r ≤ x := by simpa using hr
    rw [State.reg_loadRegs, if_neg hgt]
  all_goals
    intros
    simp

/-- Fx65 with its whole block in range loads V0..Vx and then moves I (R60, R165). -/
theorem exec_loadRegs_of_inRange (s : State) (x : Reg) (hx : s.ea x.val ≤ 4095) :
    exec (.loadRegs x) s = .next ((s.loadRegs x).bumpIndex x) := blockAccess_of_le (.loadRegs x) s x.val _ hx

/-- What a register holds after Fx65 (R165). -/
theorem State.reg_bumpIndex_loadRegs (s : State) (x k : Reg) :
    ((s.loadRegs x).bumpIndex x).reg k = if k ≤ x then s.readByte (s.ea k.val) else s.reg k := by
  rw [State.bumpIndex_reg, State.reg_loadRegs]

/-- Settles O29: the registers 0..x take the cells from I up, and I moves past them. -/
theorem loadRegistersFromIndex : Obligations.LoadRegistersFromIndex := by
  unfold Obligations.LoadRegistersFromIndex
  intro s x
  have hword : BitVec.ofNat 16 (0xF065 + 256 * x.val) = encode (.loadRegs x) := ofNat_wordFxnn x 0x65
  refine ⟨hasWord_of_encode _ _ rfl hword, fun hin => ?_, fun hout => ?_⟩
  · refine ⟨_, exec_loadRegs_of_inRange s x hin, State.reg_bumpIndex_loadRegs s x, ?_,
      (keeps_loadRegs s x).setIndex _⟩
    rw [State.bumpIndex_i_toNat _ x (by rwa [State.loadRegs_ea]), State.loadRegs_i]
  · rw [hword]
    exact blockAccess_raises (.loadRegs x) s x.val _ hout

/-- Settles O30: with I put back, the cell that register k is loaded from is the one it was stored to. -/
theorem loadRegistersUndoesStore : Obligations.LoadRegistersUndoesStore := by
  unfold Obligations.LoadRegistersUndoesStore
  intro s x hm hin
  refine ⟨_, exec_storeRegs_of_inRange s x hin, fun m hi hmem => ?_⟩
  have hea (k : Nat) : m.ea k = s.ea k := by rw [State.ea, hi, State.ea]
  refine ⟨_, exec_loadRegs_of_inRange m x (by rwa [hea]), fun k hk => ?_⟩
  rw [State.reg_bumpIndex_loadRegs, if_pos hk, hea, hmem, State.bumpIndex_readByte]
  exact readByte_writeBytes_regsUpTo s x k hm hin hk

end Sys2Proof.Machine
end

section
/-! The family 43_display: clearing the screen, and Dxyn told as one picture: the pixels it toggles, the collision it
flags, and what a second draw and an origin outside the grid make of it (spec 43_display R180 to R185). -/

namespace Sys2Proof.Machine

/-! ### Writing the framebuffer and the draw flag -/

/-- Writing the framebuffer and the draw flag changes these two only, whatever changed before. -/
theorem Keeps.setDisplay {w : Writes} {s t : State} (h : Keeps w s t) (fb : Framebuffer) (d : Bool) :
    Keeps { w with display := true, drawFlag := true } s { t with fb := fb, draw := d } :=
  { h with display := nofun, drawFlag := nofun }

/-- Settles O32: the framebuffer written is the blank one, and VF is not touched. -/
theorem clearScreenTurnsAllOff : Obligations.ClearScreenTurnsAllOff := by
  unfold Obligations.ClearScreenTurnsAllOff
  intro s
  exact ⟨rfl, _, rfl, Framebuffer.pixel_blank, rfl, (Keeps.refl {} s).setDisplay _ _⟩

/-! ### The word of Dxyn (R84) -/

/-- The number 0xDxyn is the word of Dxyn for n up to 15. -/
theorem ofNat_eq_encode_drw (x y : Reg) (n : Nat) (hn : n ≤ 15) :
    BitVec.ofNat 16 (0xD000 + 256 * x.val + 16 * y.val + n) = encode (.drw x y n) := by
  have hdigit : (BitVec.ofNat 4 n).toNat = n := Nat.mod_eq_of_lt (Nat.lt_succ_of_le hn)
  have hword := ofNat_wordXYN 0xD x y (BitVec.ofNat 4 n)
  rwa [hdigit] at hword

/-! ### The state after a draw whose rows are all in range (R181) -/

/-- The framebuffer and the collision flag after the two loops of Dxyn (R181). -/
def State.drawnCanvas (s : State) (x y : Reg) (n : Nat) : Canvas :=
  ({ fb := s.fb, hit := false } : Canvas).drawRows (s.reg x).toNat (s.reg y).toNat (s.spriteRows n)

/-- The state after Dxyn in range: the drawn framebuffer, the collision in VF, draw set if there was a row (R181, R185). -/
def State.afterDraw (s : State) (x y : Reg) (n : Nat) : State :=
  { s.setFlag (s.drawnCanvas x y n).hit with
    fb := (s.drawnCanvas x y n).fb
    draw := if n > 0 then true else s.draw }

/-- Dxyn with no row, or with its last row at 4095 or below, draws (R60, R181). -/
theorem exec_drw_of_inRange (s : State) (x y : Reg) (n : Nat) (h : n = 0 ∨ s.ea (n - 1) ≤ 4095) :
    exec (.drw x y n) s = .next (s.afterDraw x y n) := by
  cases n with
  | zero => rfl
  | succ k => exact blockAccess_of_le (.drw x y (k + 1)) s k _ (h.resolve_left (Nat.succ_ne_zero k))

/-- A draw writes VF, the framebuffer and the draw flag. -/
theorem keeps_afterDraw (s : State) (x y : Reg) (n : Nat) :
    Keeps { display := true, drawFlag := true, regs := [vf] } s (s.afterDraw x y n) :=
  (keeps_setFlag s _).setDisplay _ _

/-! ### The loops against the sprite as a set of places (R181 to R184) -/

/-- The rows that the loops draw have their bits of value 1 where the sprite at (Vx, Vy) has them. -/
theorem covers_spriteRows (s : State) (x y : Reg) (n px py : Nat) :
    Canvas.covers (s.spriteRows n) (s.reg x).toNat (s.reg y).toNat px py = s.spriteCovers x y n px py := by
  have hlength : (s.spriteRows n).length = n := by rw [State.spriteRows, List.length_map, List.length_range]
  unfold Canvas.covers State.spriteCovers
  split
  next h =>
    obtain ⟨hleft, hright, htop, hbottom⟩ := h
    rw [hlength] at hbottom
    have hbelow : py < (s.reg y).toNat + n := by omega
    simp [hleft, hright, htop, hbelow, State.spriteRows, spriteBit]
  next h =>
    rw [hlength] at h
    have houtside : ¬ ((((s.reg x).toNat ≤ px ∧ px < (s.reg x).toNat + 8) ∧ (s.reg y).toNat ≤ py) ∧
        py < (s.reg y).toNat + n) := by omega
    simp only [← Bool.decide_and, houtside, decide_false, Bool.false_and]

/-- Each pixel of the grid is toggled exactly where the sprite has a bit of value 1. -/
theorem State.pixel_afterDraw (s : State) (x y : Reg) (n px py : Nat) (hx : px < 64) (hy : py < 32) :
    (s.afterDraw x y n).pixel px py = (s.pixel px py ^^ s.spriteCovers x y n px py) := by
  have hloops : (s.afterDraw x y n).pixel px py = (s.pixel px py ^^ (decide (px < 64 ∧ py < 32) &&
      Canvas.covers (s.spriteRows n) (s.reg x).toNat (s.reg y).toNat px py)) := Canvas.pixel_drawRows ..
  rw [hloops, covers_spriteRows, decide_eq_true ⟨hx, hy⟩, Bool.true_and]

/-- The collision flag: a bit of value 1 fell on a pixel that was on. -/
theorem State.drawnCanvas_hit (s : State) (x y : Reg) (n : Nat) :
    (s.drawnCanvas x y n).hit = true ↔
      ∃ px py, px < 64 ∧ py < 32 ∧ s.spriteCovers x y n px py = true ∧ s.pixel px py = true := by
  simp only [State.drawnCanvas, Canvas.hit_drawRows, covers_spriteRows, Bool.false_eq_true, false_or]
  refine exists₂_congr fun px py => ⟨fun ⟨hcovers, hon⟩ => ?_, fun ⟨_, _, hcovers, hon⟩ => ⟨hcovers, hon⟩⟩
  obtain ⟨hx, hy⟩ := Framebuffer.pixel_inside s.fb px py hon
  exact ⟨hx, hy, hcovers, hon⟩

theorem flagByte_eq_one (f : Bool) : flagByte f = 1 ↔ f = true := by cases f <;> decide

/-- After a draw VF is the collision flag. -/
theorem State.afterDraw_vf (s : State) (x y : Reg) (n : Nat) :
    (s.afterDraw x y n).reg vf = flagByte (s.drawnCanvas x y n).hit := State.reg_setReg_same s vf _

/-- VF is 1 after a draw exactly on a collision (R184). -/
theorem State.afterDraw_vf_eq_one (s : State) (x y : Reg) (n : Nat) :
    (s.afterDraw x y n).reg vf = 1 ↔
      ∃ px py, px < 64 ∧ py < 32 ∧ s.spriteCovers x y n px py = true ∧ s.pixel px py = true := by
  rw [State.afterDraw_vf, flagByte_eq_one, State.drawnCanvas_hit]

/-- VF is 1 or 0 after a draw. -/
theorem State.afterDraw_vf_or (s : State) (x y : Reg) (n : Nat) :
    (s.afterDraw x y n).reg vf = 1 ∨ (s.afterDraw x y n).reg vf = 0 := by
  rw [State.afterDraw_vf]
  cases (s.drawnCanvas x y n).hit
  · exact .inr rfl
  · exact .inl rfl

/-- Settles O33: the loops in closed form, and the range check of n rows. -/
theorem drawTogglesExactlyTheSprite : Obligations.DrawTogglesExactlyTheSprite := by
  unfold Obligations.DrawTogglesExactlyTheSprite
  intro s x y n hn
  have hword := ofNat_eq_encode_drw x y n hn
  refine ⟨hasWord_of_encode _ (.drw x y n) (decide_eq_true hn) hword, fun hin => ?_, fun hpos hout => ?_⟩
  · exact ⟨_, exec_drw_of_inRange s x y n hin, s.pixel_afterDraw x y n, s.afterDraw_vf_or x y n,
      s.afterDraw_vf_eq_one x y n, rfl, keeps_afterDraw s x y n⟩
  · obtain ⟨k, rfl⟩ := Nat.exists_eq_succ_of_ne_zero hpos.ne'
    rw [hword]
    exact blockAccess_raises (.drw x y (k + 1)) s k _ hout

/-! ### Drawing twice (R181, R184) -/

/-- The sprite depends on its origin, on I and on memory only. -/
theorem State.spriteCovers_congr (s m : State) (x y : Reg) (n px py : Nat) (hi : m.i = s.i) (hx : m.reg x = s.reg x)
    (hy : m.reg y = s.reg y) (hmem : ∀ a, m.readByte a = s.readByte a) :
    m.spriteCovers x y n px py = s.spriteCovers x y n px py := by
  simp only [State.spriteCovers, State.ea, hi, hx, hy, hmem]

/-- Settles O34: the second draw toggles the places of the first again, and where the sprite has a bit of value 1 a pixel
is on before the second draw exactly when it was off before the first. -/
theorem drawingTwiceRestoresPixels : Obligations.DrawingTwiceRestoresPixels := by
  unfold Obligations.DrawingTwiceRestoresPixels
  intro s x y n hin
  refine ⟨_, exec_drw_of_inRange s x y n hin, fun m hfb hi hx hy hmem => ?_⟩
  have hea (k : Nat) : m.ea k = s.ea k := by rw [State.ea, hi, State.ea]
  have hcovers (px py : Nat) := State.spriteCovers_congr s m x y n px py hi hx hy hmem
  have hpixel (px py : Nat) (hpx : px < 64) (hpy : py < 32) :
      m.pixel px py = (s.pixel px py ^^ s.spriteCovers x y n px py) := by
    rw [State.pixel, hfb]
    exact s.pixel_afterDraw x y n px py hpx hpy
  refine ⟨_, exec_drw_of_inRange m x y n (by rwa [hea]), ?_, ?_⟩
  · apply Framebuffer.ext_pixel
    intro px py hpx hpy
    calc (m.afterDraw x y n).pixel px py
        = ((s.pixel px py ^^ s.spriteCovers x y n px py) ^^ s.spriteCovers x y n px py) := by
          rw [m.pixel_afterDraw x y n px py hpx hpy, hpixel px py hpx hpy, hcovers]
      _ = s.pixel px py := by rw [Bool.xor_assoc, Bool.xor_self, Bool.xor_false]
  · rw [State.afterDraw_vf_eq_one]
    refine exists₂_congr fun px py => and_congr_right fun hpx => and_congr_right fun hpy => ?_
    rw [hcovers, hpixel px py hpx hpy]
    refine and_congr_right fun hbit => ?_
    rw [hbit, Bool.xor_true, Bool.not_eq_true']

/-! ### An origin outside the grid (R182, R183) -/

/-- A sprite whose origin is outside the grid has no bit inside it: the origin is not reduced. -/
theorem State.spriteCovers_of_origin_outside (s : State) (x y : Reg) (n px py : Nat)
    (h : 64 ≤ (s.reg x).toNat ∨ 32 ≤ (s.reg y).toNat) (hpx : px < 64) (hpy : py < 32) :
    s.spriteCovers x y n px py = false := by
  rw [State.spriteCovers]
  rcases h with hx | hy
  · rw [decide_eq_false (show ¬ (s.reg x).toNat ≤ px by omega)]
    simp only [Bool.false_and]
  · rw [decide_eq_false (show ¬ (s.reg y).toNat ≤ py by omega)]
    simp only [Bool.and_false, Bool.false_and]

/-- Settles O35: with no bit in the grid nothing is toggled and nothing collides. -/
theorem originOutsideGridDropsSprite : Obligations.OriginOutsideGridDropsSprite := by
  unfold Obligations.OriginOutsideGridDropsSprite
  intro s x y n hin hout
  have hempty (px py : Nat) := s.spriteCovers_of_origin_outside x y n px py hout
  refine ⟨_, exec_drw_of_inRange s x y n hin, ?_, (s.afterDraw_vf_or x y n).resolve_left ?_⟩
  · apply Framebuffer.ext_pixel
    intro px py hpx hpy
    have htoggled := s.pixel_afterDraw x y n px py hpx hpy
    rwa [hempty px py hpx hpy, Bool.xor_false] at htoggled
  · rw [State.afterDraw_vf_eq_one]
    rintro ⟨px, py, hpx, hpy, hbit, -⟩
    rw [hempty px py hpx hpy] at hbit
    cases hbit

end Sys2Proof.Machine
end

section
/-! The family 44_keys_and_timers: the key skips, the timer moves, and the key wait, how it begins and what ends it (spec
44_keys_and_timers R200 to R206; 45_host_operations R226 to R228, R231). -/

namespace Sys2Proof.Machine

/-! ### Writing one timer or the run state -/

theorem keeps_setDelay (s : State) (b : Byte) : Keeps { delay := true } s { s with dt := b } :=
  { Keeps.refl {} s with delay := nofun }

theorem keeps_setSound (s : State) (b : Byte) : Keeps { sound := true } s { s with st := b } :=
  { Keeps.refl {} s with sound := nofun }

theorem keeps_setRun (s : State) (r : RunState) : Keeps { run := true } s { s with run := r } :=
  { Keeps.refl {} s with run := nofun }

/-! ### KEY and TMR in a key wait (R226 to R228, R231) -/

/-- The state after key k ends a wait with destination d: its flag, V[d] and the run state are written (R206, R227). -/
def State.afterPress (s : State) (d : Reg) (k : Fin 16) : State :=
  { (s.setKey k true).setReg d (BitVec.ofNat 8 k.val) with run := .running }

/-- A press resumes the core (R227). -/
theorem key_press_of_awaiting (s : State) (d : Reg) (k : Fin 16) (hrun : s.run = .awaitingKey d) :
    key k.val true s = .next (s.afterPress d k) := by
  rw [key, dif_pos k.isLt, State.keyEvent, hrun]
  rfl

/-- A release in a wait writes its flag only (R226). -/
theorem key_release_of_awaiting (s : State) (d : Reg) (k : Fin 16) (hrun : s.run = .awaitingKey d) :
    key k.val false s = .next (s.setKey k false) := by
  rw [key, dif_pos k.isLt, State.keyEvent, hrun]
  rfl

/-- An index above 15 raises InvalidKey in a wait (R228). -/
theorem key_outside_of_awaiting (s : State) (d : Reg) (k : Nat) (p : Bool) (hrun : s.run = .awaitingKey d)
    (hk : ¬ k < 16) : key k p s = raise .invalidKey 0 0 s := by
  rw [key, dif_neg hk, hrun]

/-- V[d] holds the index of the key that ended the wait (R227). -/
theorem State.afterPress_reg_toNat (s : State) (d : Reg) (k : Fin 16) :
    ((s.afterPress d k).reg d).toNat = k.val := by
  have hreg : (s.afterPress d k).reg d = BitVec.ofNat 8 k.val := State.reg_setReg_same _ d _
  rw [hreg, BitVec.toNat_ofNat]
  omega

/-- A timer tick writes no register. -/
theorem State.timerTick_reg (s : State) (r : Reg) : s.timerTick.reg r = s.reg r := by
  unfold State.timerTick
  split <;> rfl

/-! ### What leaves a key wait as it is -/

/-- t still waits with destination d, at the pc of s and with the registers of s. -/
structure WaitsOn (d : Reg) (s t : State) : Prop where
  run : t.run = .awaitingKey d
  pc : t.pc = s.pc
  regs : ∀ r : Reg, t.reg r = s.reg r

theorem WaitsOn.trans {d : Reg} {s t u : State} (hst : WaitsOn d s t) (htu : WaitsOn d t u) : WaitsOn d s u :=
  ⟨htu.run, htu.pc.trans hst.pc, fun r => (htu.regs r).trans (hst.regs r)⟩

/-- A TICK, a TMR or a release leaves the core waiting (R206, R226, R231). -/
theorem perform_waitsOn (s : State) (d : Reg) (op : HostOp) (hrun : s.run = .awaitingKey d)
    (hop : op = .tick ∨ op = .timer ∨ ∃ j : Fin 16, op = .key j.val false) :
    ∃ t, perform op s = .next t ∧ WaitsOn d s t := by
  rcases hop with rfl | rfl | ⟨j, rfl⟩
  · obtain ⟨-, -, hawaiting, -⟩ := tickByRunState s
    exact ⟨s, hawaiting d hrun, hrun, rfl, fun _ => rfl⟩
  · obtain ⟨hpc, -, -, hkept⟩ := timerTick_control s
    exact ⟨s.timerTick, rfl, hkept.trans hrun, hpc, s.timerTick_reg⟩
  · exact ⟨s.setKey j false, key_release_of_awaiting s d j hrun, hrun, rfl, fun _ => rfl⟩

/-! ### What ends a key wait (R206) -/

/-- Settles O39: TICK, TMR and a release leave the core waiting, and every other operation is one of those named. -/
theorem onlyPressOrLoadEndsKeyWait : Obligations.OnlyPressOrLoadEndsKeyWait := by
  unfold Obligations.OnlyPressOrLoadEndsKeyWait
  intro s t d op hrun hop hended
  have hloud : ¬ (op = .tick ∨ op = .timer ∨ ∃ j : Fin 16, op = .key j.val false) := by
    intro hquiet
    obtain ⟨u, hu, hwaits⟩ := perform_waitsOn s d op hrun hquiet
    rw [hu] at hop
    cases hop
    exact hended hwaits.run
  cases op with
  | load img => exact .inr (.inl ⟨img, rfl⟩)
  | tick => exact absurd (.inl rfl) hloud
  | timer => exact absurd (.inr (.inl rfl)) hloud
  | key k p =>
    by_cases hk : k < 16
    · obtain ⟨j, rfl⟩ : ∃ j : Fin 16, k = j.val := ⟨⟨k, hk⟩, rfl⟩
      cases p with
      | false => exact absurd (.inr (.inr ⟨j, rfl⟩)) hloud
      | true =>
        rw [perform, key_press_of_awaiting s d j hrun] at hop
        cases hop
        exact .inl ⟨j, rfl, rfl, s.afterPress_reg_toNat d j, rfl⟩
    · rw [perform, key_outside_of_awaiting s d k p hrun hk] at hop
      cases hop
      exact .inr (.inr ⟨k, p, rfl, Nat.not_lt.1 hk, rfl⟩)

/-! ### A key wait through any number of TICKs, TMRs and releases -/

/-- Serving an operation that answers a next state goes on from that state. -/
theorem performAll_cons (op : HostOp) (rest : List HostOp) (s t : State) (h : perform op s = .next t) :
    performAll (op :: rest) s = performAll rest t := by
  rw [performAll, h]

/-- After any number of TICKs, TMRs and releases the core still waits, and what follows is served from there. -/
theorem performAll_waitsOn (ops : List HostOp) (s : State) (d : Reg) (hrun : s.run = .awaitingKey d)
    (hops : ∀ op ∈ ops, op = .tick ∨ op = .timer ∨ ∃ j : Fin 16, op = .key j.val false) :
    ∃ t, WaitsOn d s t ∧ ∀ rest, performAll (ops ++ rest) s = performAll rest t := by
  induction ops generalizing s with
  | nil => exact ⟨s, ⟨hrun, rfl, fun _ => rfl⟩, fun _ => rfl⟩
  | cons op ops ih =>
    obtain ⟨hop, hrest⟩ := List.forall_mem_cons.1 hops
    obtain ⟨t, hperform, hwait⟩ := perform_waitsOn s d op hrun hop
    obtain ⟨u, hwaits, hall⟩ := ih t hwait.run hrest
    refine ⟨u, hwait.trans hwaits, fun rest => ?_⟩
    rw [List.cons_append, performAll_cons op _ s t hperform, hall]

/-- Settles O40: the press finds the core still waiting, with the pc and the registers the wait began with. -/
theorem firstPressResolvesKeyWait : Obligations.FirstPressResolvesKeyWait := by
  unfold Obligations.FirstPressResolvesKeyWait
  intro ops s d k hrun hops
  obtain ⟨t, hwaits, hall⟩ := performAll_waitsOn ops s d hrun hops
  have hpress : perform (.key k.val true) t = .next (t.afterPress d k) := key_press_of_awaiting t d k hwaits.run
  refine ⟨t.afterPress d k, ?_, rfl, t.afterPress_reg_toNat d k, hwaits.pc, ?_, fun r hr => ?_⟩
  · rw [hall, performAll_cons _ _ t _ hpress]
    rfl
  · exact (State.keys_setKey t k k true).trans (if_pos rfl)
  · exact (State.reg_setReg_other _ d r _ hr).trans (hwaits.regs r)

/-! ### The key skips (R200, R201) -/

theorem State.keyFlag_of_lt (s : State) (b : Byte) (h : b.toNat < 16) : s.keyFlag b = some s.keys[b.toNat] :=
  dif_pos h

theorem State.keyFlag_of_outside (s : State) (b : Byte) (h : 15 < b.toNat) : s.keyFlag b = none :=
  dif_neg (Nat.not_lt.2 h)

/-- The number of a word of format XNN, with its function code added first as the statements write it. -/
theorem ofNat_wordXNN_codeFirst (t : BitVec 4) (x : Reg) (nn : Byte) :
    BitVec.ofNat 16 (t.toNat * 4096 + nn.toNat + 256 * x.val) = wordXNN t x nn := by
  rw [Nat.add_right_comm]
  exact ofNat_wordXNN t x nn

/-- Settles O36: both skip on the flag of the key with number Vx, or find no such key. -/
theorem keySkipsReadWholeByte : Obligations.KeySkipsReadWholeByte := by
  unfold Obligations.KeySkipsReadWholeByte
  intro s x
  have hskp : BitVec.ofNat 16 (0xE09E + 256 * x.val) = encode (.skp x) := ofNat_wordXNN_codeFirst 0xE x 0x9E
  have hsknp : BitVec.ofNat 16 (0xE0A1 + 256 * x.val) = encode (.sknp x) := ofNat_wordXNN_codeFirst 0xE x 0xA1
  refine ⟨hasWord_of_encode _ _ rfl hskp, hasWord_of_encode _ _ rfl hsknp, fun hin => ?_, fun hout => ?_⟩
  · have hflag := s.keyFlag_of_lt (s.reg x) hin
    constructor
    · simp only [exec, execSkp, hflag]
      exact skipIf_answers _ s
    · simp only [exec, execSknp, hflag]
      simpa only [decide_not, Bool.decide_eq_true] using skipIf_answers_of_not (s.keys[(s.reg x).toNat] = true) s
  · have hflag := s.keyFlag_of_outside (s.reg x) hout
    rw [hskp, hsknp]
    constructor
    · simp only [exec, execSkp, hflag]
      exact raiseAt_answers (.skp x) .invalidKey s
    · simp only [exec, execSknp, hflag]
      exact raiseAt_answers (.sknp x) .invalidKey s

/-! ### The timers and the start of a key wait (R202 to R205) -/

/-- Settles O37: each writes one field, the register or the timer, and reads the other. -/
theorem timerInstructionsMoveBytes : Obligations.TimerInstructionsMoveBytes := by
  unfold Obligations.TimerInstructionsMoveBytes
  intro s x
  refine ⟨⟨?_, _, rfl, State.reg_setReg_same s x s.dt, keeps_setReg s x s.dt⟩,
    ⟨?_, _, rfl, rfl, keeps_setDelay s _⟩, ⟨?_, _, rfl, rfl, keeps_setSound s _⟩⟩
  · exact hasWord_of_encode _ (.ldVxDt x) rfl (ofNat_wordFxnn x 0x07)
  · exact hasWord_of_encode _ (.ldDtVx x) rfl (ofNat_wordFxnn x 0x15)
  · exact hasWord_of_encode _ (.ldStVx x) rfl (ofNat_wordFxnn x 0x18)

/-- Settles O38: the run state written holds x, and no register or key flag is touched. -/
theorem keyWaitRemembersRegister : Obligations.KeyWaitRemembersRegister := by
  unfold Obligations.KeyWaitRemembersRegister
  intro s x
  exact ⟨hasWord_of_encode _ (.ldVxK x) rfl (ofNat_wordFxnn x 0x0A), _, rfl, rfl, keeps_setRun s _⟩

end Sys2Proof.Machine
end

section
/-! The family 45_host_operations: what LOAD, KEY and TMR do in each run state, and what each operation does before the
first LOAD (spec 45_host_operations R223 to R229, R237; 70_reset_and_hazards R290, R295). -/

namespace Sys2Proof.Machine

/-! ### TMR (R229) -/

theorem countDown_toNat (t : Byte) : (countDown t).toNat = t.toNat - 1 := by
  unfold countDown
  split
  next hzero =>
    rw [hzero]
    rfl
  next hpos =>
    have hne : t.toNat ≠ 0 := fun h => hpos (BitVec.eq_of_toNat_eq h)
    have hle : 1 ≤ t := BitVec.le_def.2 (Nat.one_le_iff_ne_zero.2 hne)
    exact BitVec.toNat_sub_of_le hle

/-- Before a load and after a fault a timer tick changes nothing (R229). -/
theorem State.timerTick_of_not_live (s : State) (h : s.run = .unloaded ∨ s.run = .faulted) : s.timerTick = s := by
  rcases h with h | h <;> rw [State.timerTick, h]

/-- While the core runs or waits a timer tick counts both timers down (R229). -/
theorem State.timerTick_of_live (s : State) (h : s.live) :
    s.timerTick = { s with dt := countDown s.dt, st := countDown s.st } := by
  rcases h with h | ⟨d, h⟩ <;> rw [State.timerTick, h]

theorem timerTick_delay_of_live (s : State) (h : s.live) : s.timerTick.dt.toNat = s.dt.toNat - 1 := by
  rw [s.timerTick_of_live h]
  exact countDown_toNat s.dt

theorem timerTick_sound_of_live (s : State) (h : s.live) : s.timerTick.st.toNat = s.st.toNat - 1 := by
  rw [s.timerTick_of_live h]
  exact countDown_toNat s.st

theorem keeps_timerTick (s : State) (h : s.live) : Keeps { delay := true, sound := true } s s.timerTick := by
  rw [s.timerTick_of_live h]
  exact { Keeps.refl {} s with delay := nofun, sound := nofun }

/-- A timer tick leaves a live core live. -/
theorem timerTick_live (s : State) (h : s.live) : s.timerTick.live := by
  obtain ⟨-, -, -, hrun⟩ := timerTick_control s
  rwa [State.live, hrun]

/-- Settles O46: both timers are counted down exactly while the core runs or waits. -/
theorem timerDecrementFloorsAtZero : Obligations.TimerDecrementFloorsAtZero := by
  unfold Obligations.TimerDecrementFloorsAtZero
  refine fun s => ⟨fun hrun => ?_, fun hlive => ?_⟩
  · rw [perform, s.timerTick_of_not_live hrun]
  · exact ⟨_, rfl, timerTick_delay_of_live s hlive, timerTick_sound_of_live s hlive, keeps_timerTick s hlive⟩

/-- What two operations in a row each keep, both together keep. -/
theorem Keeps.trans {w : Writes} {s t u : State} (hst : Keeps w s t) (htu : Keeps w t u) : Keeps w s u where
  regs r hr := (htu.regs r hr).trans (hst.regs r hr)
  cells a ha := (htu.cells a ha).trans (hst.cells a ha)
  slots k hk := (htu.slots k hk).trans (hst.slots k hk)
  index h := (htu.index h).trans (hst.index h)
  pc h := (htu.pc h).trans (hst.pc h)
  sp h := (htu.sp h).trans (hst.sp h)
  display h := (htu.display h).trans (hst.display h)
  drawFlag h := (htu.drawFlag h).trans (hst.drawFlag h)
  keys h := (htu.keys h).trans (hst.keys h)
  delay h := (htu.delay h).trans (hst.delay h)
  sound h := (htu.sound h).trans (hst.sound h)
  run h := (htu.run h).trans (hst.run h)
  record h := by
    obtain ⟨hcause, hop, haddr⟩ := hst.record h
    rw [← hcause, ← hop, ← haddr]
    exact htu.record h
  draws h := (htu.draws h).trans (hst.draws h)
  font := htu.font.trans hst.font
  inbox := htu.inbox.trans hst.inbox

/-- Settles O47, by induction on the number of TMRs: the first leaves the core live, and two floored differences in a row
are the floored difference of the sum. -/
theorem timersNeverWrapUnderRepeatedTmr : Obligations.TimersNeverWrapUnderRepeatedTmr := by
  unfold Obligations.TimersNeverWrapUnderRepeatedTmr
  intro n
  induction n with
  | zero => exact fun s _ => ⟨s, rfl, rfl, rfl, Keeps.refl _ s⟩
  | succ n ih =>
    intro s hlive
    obtain ⟨t, hall, hdelay, hsound, hkeeps⟩ := ih s.timerTick (timerTick_live s hlive)
    refine ⟨t, ?_, ?_, ?_, (keeps_timerTick s hlive).trans hkeeps⟩
    · rw [List.replicate_succ, performAll_cons .timer _ s s.timerTick rfl, hall]
    · rw [hdelay, timerTick_delay_of_live s hlive, Nat.sub_sub, Nat.add_comm]
    · rw [hsound, timerTick_sound_of_live s hlive, Nat.sub_sub, Nat.add_comm]

/-! ### KEY (R226 to R228) -/

/-- KEY with an index in 0..15 is a key event. -/
theorem key_of_inRange (s : State) (k : Fin 16) (p : Bool) : key k.val p s = .next (s.keyEvent k p) :=
  dif_pos k.isLt

/-- Before a load and after a fault KEY changes nothing, whatever its index (R226, R237; log 9). -/
theorem key_of_not_live (s : State) (k : Nat) (p : Bool) (h : s.run = .unloaded ∨ s.run = .faulted) :
    key k p s = .next s := by
  unfold key State.keyEvent
  rcases h with h | h <;> simp only [h, dite_eq_ite, ite_self]

/-- While the core runs KEY writes the flag (R226). -/
theorem key_of_running (s : State) (k : Fin 16) (p : Bool) (h : s.run = .running) :
    key k.val p s = .next (s.setKey k p) := by
  rw [key_of_inRange, State.keyEvent, h]

/-- An index above 15 raises InvalidKey while the core runs or waits (R228). -/
theorem key_outside_of_live (s : State) (k : Nat) (p : Bool) (hlive : s.live) (hk : ¬ k < 16) :
    key k p s = raise .invalidKey 0 0 s := by
  rcases hlive with hrun | ⟨d, hrun⟩
  · rw [key, dif_neg hk, hrun]
  · exact key_outside_of_awaiting s d k p hrun hk

theorem keeps_setKey (s : State) (k : Fin 16) (p : Bool) : Keeps { keys := true } s (s.setKey k p) :=
  { Keeps.refl {} s with keys := nofun }

/-- A press in a wait writes its flag, V[d] and the run state, and nothing else (R227). -/
theorem keeps_afterPress (s : State) (d : Reg) (k : Fin 16) :
    Keeps { keys := true, regs := [d], run := true } s (s.afterPress d k) :=
  { keeps_setReg s d (BitVec.ofNat 8 k.val) with keys := nofun, run := nofun }

/-- Settles O44: the flag is written while the core runs or waits, and a press in a wait is State.afterPress. -/
theorem keyEventByRunState : Obligations.KeyEventByRunState := by
  unfold Obligations.KeyEventByRunState
  refine fun s k p => ⟨key_of_not_live s k.val p, fun hrun => ?_, fun d hrun => ?_⟩
  · exact ⟨_, key_of_running s k p hrun, fun j => s.keys_setKey k j p, keeps_setKey s k p⟩
  · cases p with
    | false =>
      exact ⟨_, key_release_of_awaiting s d k hrun, fun j => s.keys_setKey k j false, nofun,
        fun _ => keeps_setKey s k false⟩
    | true =>
      exact ⟨_, key_press_of_awaiting s d k hrun, fun j => s.keys_setKey k j true,
        fun _ => ⟨s.afterPress_reg_toNat d k, rfl, keeps_afterPress s d k⟩, nofun⟩

/-- Settles O45: the index is no key, so a live core raises; any other ignores every KEY. -/
theorem keyIndexOutsideRangeFaults : Obligations.KeyIndexOutsideRangeFaults := by
  unfold Obligations.KeyIndexOutsideRangeFaults
  refine fun s k p hk => ⟨fun hlive => ?_, key_of_not_live s k p⟩
  rw [key_outside_of_live s k p hlive (Nat.not_lt.2 hk)]
  exact raise_answers .invalidKey 0 0 s

/-! ### LOAD (R223 to R225) -/

/-- A LOAD of at most 3584 bytes succeeds (R223). -/
theorem load_of_fits (s : State) (img : List Byte) (h : img.length ≤ 3584) :
    load (some img) s = .next (s.loaded img) := if_pos h

/-- A LOAD of more than 3584 bytes raises InvalidProgram (R225). -/
theorem load_of_tooLong (s : State) (img : List Byte) (h : 3584 < img.length) :
    load (some img) s = raise .invalidProgram 0 0 s := if_neg (Nat.not_le.2 h)

/-- After a LOAD a cell holds its byte of the image, and elsewhere its reset contents (R224). -/
theorem readByte_loaded (s : State) (img : List Byte) (a : Nat) (himg : img.length ≤ 3584) :
    (s.loaded img).readByte a =
      if h : 512 ≤ a ∧ a - 512 < img.length then img[a - 512] else unlistedByte s.font a := by
  have hfits : Config.progBase + img.length ≤ Config.memSize := by
    simp only [Config.progBase, Config.memSize]
    omega
  exact Memory.read_writeBytes s.font [] Config.progBase a img (Memory.wf_nil s.font) hfits

/-- After a LOAD: FONT at 0..79, the image from 512, 0 elsewhere; FONT ends below the image (R224). -/
theorem readByte_loaded_font_first (s : State) (img : List Byte) (a : Nat) (himg : img.length ≤ 3584) :
    (s.loaded img).readByte a =
      if h : a < 80 then s.font[a] else if h : 512 ≤ a ∧ a - 512 < img.length then img[a - 512] else 0 := by
  rw [readByte_loaded s img a himg]
  by_cases hfont : a < 80
  · rw [dif_neg (by omega), dif_pos hfont]
    exact dif_pos hfont
  · have hreset : unlistedByte s.font a = 0 := dif_neg hfont
    rw [dif_neg hfont, hreset]

/-- What a LOAD leaves is set from the image and FONT, but for the model's own fields (R224; log 5). -/
theorem loaded_of_font_eq (s u : State) (img : List Byte) (h : u.font = s.font) :
    u.loaded img = { s.loaded img with draws := u.draws, inbox := u.inbox } := by
  unfold State.loaded
  rw [h]

/-- Settles O41: the values of State.loaded, and its memory cell by cell. -/
theorem loadResetsEverything : Obligations.LoadResetsEverything := by
  unfold Obligations.LoadResetsEverything
  intro s img himg
  refine ⟨_, load_of_fits s img himg, fun r => ?_, rfl, rfl, fun a _ => readByte_loaded_font_first s img a himg,
    fun k => ?_, rfl, Framebuffer.pixel_blank, fun k => ?_, rfl, rfl, rfl, rfl, rfl, rfl, rfl, rfl⟩
  all_goals exact Vector.getElem_replicate _

/-- Settles O42: the core runs after the LOAD, so the image fits, and both states come from the image and one FONT. -/
theorem loadLeavesNoResidue : Obligations.LoadLeavesNoResidue := by
  unfold Obligations.LoadLeavesNoResidue
  intro s u t t' img hfont hs hrun hu
  rcases Nat.lt_or_ge 3584 img.length with hlong | hfits
  · rw [load_of_tooLong s img hlong] at hs
    cases hs
    cases hrun
  · rw [load_of_fits s img hfits] at hs
    rw [load_of_fits u img hfits] at hu
    cases hs
    cases hu
    exact loaded_of_font_eq s u img hfont

/-- Settles O43: both images make LOAD raise. -/
theorem badImageRaisesInvalidProgram : Obligations.BadImageRaisesInvalidProgram := by
  unfold Obligations.BadImageRaisesInvalidProgram
  refine fun s => ⟨raise_answers .invalidProgram 0 0 s, fun img hlong => ?_⟩
  rw [load_of_tooLong s img hlong]
  exact raise_answers .invalidProgram 0 0 s

/-! ### Before the first LOAD (R237, R290) -/

/-- Settles O49: UNLOADED has no TICK and ignores KEY and TMR, and a LOAD does there what it does anywhere. -/
theorem operationsBeforeFirstLoad : Obligations.OperationsBeforeFirstLoad := by
  unfold Obligations.OperationsBeforeFirstLoad
  rintro s ⟨hrun, -⟩
  obtain ⟨hunloaded, -⟩ := tickByRunState s
  refine ⟨hunloaded hrun, ?_, fun k p => key_of_not_live s k.val p (.inl hrun),
    fun bytes hfits => ⟨_, load_of_fits s bytes hfits, rfl⟩,
    fun bytes hlong => ⟨_, load_of_tooLong s bytes hlong, rfl⟩, _, rfl, rfl⟩
  rw [perform, s.timerTick_of_not_live (.inl hrun)]

end Sys2Proof.Machine
end

section
/-! The family 60_exceptions: what raising a fault latches, which instruction can raise what, what a faulted TICK leaves,
and the frozen core after it (spec 60_exceptions R250 to R255). -/

namespace Sys2Proof.Machine

/-! ### The fault record (R250, R253) -/

/-- A latched fault reads as the code of its kind. -/
@[simp] theorem State.latch_fcauseCode (s : State) (k : ErrorKind) (op addr : Word) :
    (s.latch k op addr).fcauseCode = k.code := rfl

/-- No kind has the code 0, which stands for no fault (R39, R250). -/
theorem ErrorKind.one_le_code (k : ErrorKind) : 1 ≤ k.code.toNat := by cases k <;> decide

/-- Settles O12: raising is latching, and the codes count the list of R250 from 1. -/
theorem raiseLatchesRecord : Obligations.RaiseLatchesRecord := by
  unfold Obligations.RaiseLatchesRecord
  intro k op addr s
  refine ⟨_, rfl, raised_latch s k op addr, ?_⟩
  rw [State.latch_fcauseCode]
  exact ⟨k.one_le_code, by cases k <;> rfl⟩

/-! ### Which instruction can raise what (R251) -/

/-- The table of R251: i can raise k while it executes. -/
inductive CanRaise : Instr → ErrorKind → Prop
  | ret : CanRaise .ret .stackUnderflow
  | call (nnn : Addr) : CanRaise (.call nnn) .stackOverflow
  | drw (x y : Reg) (n : Nat) (hn : n ≠ 0) : CanRaise (.drw x y n) .memoryOutOfBounds
  | ldB (x : Reg) : CanRaise (.ldB x) .memoryOutOfBounds
  | storeRegs (x : Reg) : CanRaise (.storeRegs x) .memoryOutOfBounds
  | loadRegs (x : Reg) : CanRaise (.loadRegs x) .memoryOutOfBounds
  | skp (x : Reg) : CanRaise (.skp x) .invalidKey
  | sknp (x : Reg) : CanRaise (.sknp x) .invalidKey

/-- A fault raised has one kind. -/
theorem raiseAt_kind_inj {i : Instr} {k k' : ErrorKind} {s : State} (h : raiseAt i k s = raiseAt i k' s) : k = k' :=
  Option.some.inj (congrArg State.fcause (Host.Outcome.next.inj h))

/-- An answer that leaves the run state of a core not faulted raises nothing. -/
theorem next_ne_raiseAt {i : Instr} {k : ErrorKind} {s t : State} (hs : s.run ≠ .faulted) (ht : t.run = s.run) :
    Host.Outcome.next t ≠ raiseAt i k s :=
  fun h => hs (ht.symm.trans (congrArg State.run (Host.Outcome.next.inj h)))

/-- A skip raises nothing. -/
theorem skipIf_ne_raiseAt {i : Instr} {k : ErrorKind} {s : State} (c : Bool) (hs : s.run ≠ .faulted) :
    skipIf c s ≠ raiseAt i k s :=
  next_ne_raiseAt hs (by cases c <;> rfl)

/-- An access to a block of n cells at I can raise MemoryOutOfBounds alone, and nothing where the block is empty (R60). -/
theorem blockAccess_raises_only {i : Instr} {k : ErrorKind} {s t : State} {n : Nat} (hs : s.run ≠ .faulted)
    (h : (if s.blockInRange n then .next t else raiseAt i .memoryOutOfBounds s) = raiseAt i k s)
    (ht : t.run = s.run) : n ≠ 0 ∧ .memoryOutOfBounds = k := by
  split at h
  · exact absurd h (next_ne_raiseAt hs ht)
  next hout => exact ⟨fun hn => hout (hn ▸ s.blockInRange_zero), raiseAt_kind_inj h⟩

/-- A meaning that raises is in the table, with its kind. -/
theorem canRaise_of_exec {i : Instr} {k : ErrorKind} {s : State} (hs : s.run ≠ .faulted)
    (h : exec i s = raiseAt i k s) : CanRaise i k := by
  cases i
  case ret =>
    by_cases hsp : s.sp.val = 0
    · rw [exec_ret_of_empty s hsp] at h
      exact raiseAt_kind_inj h ▸ .ret
    · rw [exec_ret_of_pos s hsp] at h
      exact absurd h (next_ne_raiseAt hs rfl)
  case call nnn =>
    by_cases hsp : s.sp.val = 16
    · rw [exec_call_of_full nnn s hsp] at h
      exact raiseAt_kind_inj h ▸ .call nnn
    · rw [exec_call_of_lt nnn s (by omega)] at h
      exact absurd h (next_ne_raiseAt hs rfl)
  case drw x y n =>
    obtain ⟨hn, rfl⟩ := blockAccess_raises_only hs h rfl
    exact .drw x y n hn
  case ldB x =>
    obtain ⟨-, rfl⟩ := blockAccess_raises_only hs h rfl
    exact .ldB x
  case storeRegs x =>
    obtain ⟨-, rfl⟩ := blockAccess_raises_only hs h rfl
    exact .storeRegs x
  case loadRegs x =>
    obtain ⟨-, rfl⟩ := blockAccess_raises_only hs h (by simp)
    exact .loadRegs x
  case skp | sknp =>
    simp only [exec, execSkp, execSknp] at h
    split at h
    · cases raiseAt_kind_inj h
      constructor
    · exact absurd h (skipIf_ne_raiseAt _ hs)
  case seImm | sneImm | seReg | sneReg => exact absurd h (skipIf_ne_raiseAt _ hs)
  case ldVxK => exact nomatch congrArg State.run (Host.Outcome.next.inj h)
  all_goals exact absurd h (next_ne_raiseAt hs rfl)

/-- A meaning that faults a running core latches a kind of the table, with its own word and the address it was fetched
from, and does nothing else (R251, R252). -/
theorem exec_faulted {i : Instr} {s t : State} (hs : s.run = .running) (h : exec i s = .next t)
    (ht : t.run = .faulted) : ∃ k, CanRaise i k ∧ t = s.latch k (encode i) (s.pc - 2) := by
  rcases exec_answers i s with ⟨k, -, hraise⟩ | ⟨u, hu, hrun, -⟩
  · exact ⟨k, canRaise_of_exec (by simp [hs]) hraise, Host.Outcome.next.inj (h.symm.trans hraise)⟩
  · obtain rfl : u = t := Host.Outcome.next.inj (hu.symm.trans h)
    rcases hrun with hrun | ⟨x, hrun⟩ <;> simp [hrun, hs] at ht

/-- Settles O10: the kind latched is in the table, and the table is the list. -/
theorem onlyListedInstructionsFault : Obligations.OnlyListedInstructionsFault := by
  unfold Obligations.OnlyListedInstructionsFault
  intro i s t hs h ht
  obtain ⟨k, hk, rfl⟩ := exec_faulted hs h ht
  cases hk with
  | ret => exact .inl ⟨rfl, rfl⟩
  | call => exact .inr (.inl ⟨rfl, rfl⟩)
  | drw x y n hn => exact .inr (.inr (.inl ⟨by simp [Instr.pattern], by simp [hn], rfl⟩))
  | ldB | storeRegs | loadRegs => exact .inr (.inr (.inl ⟨by simp [Instr.pattern], nofun, rfl⟩))
  | skp | sknp => exact .inr (.inr (.inr ⟨by simp [Instr.pattern], rfl⟩))

/-! ### A faulted TICK (R252, R255) -/

/-- A cycle that faults a running core latches with the address it fetched from: before the advance, without a word,
where the fetch is out of range, and else after the advance, with the word fetched. -/
theorem runCycle_faulted {s t : State} (hs : s.run = .running) (h : runCycle s = .next t) (ht : t.run = .faulted) :
    (4094 < s.pc.toNat ∧ t = s.latch .memoryOutOfBounds 0 s.pc) ∨
    (s.pc.toNat ≤ 4094 ∧ ∃ k, t = s.advance.latch k s.fetchWord s.pc) := by
  rcases Nat.lt_or_ge 4094 s.pc.toNat with hpc | hpc
  · rw [runCycle_of_outOfRange s hpc] at h
    exact .inl ⟨hpc, (Host.Outcome.next.inj h).symm⟩
  refine .inr ⟨hpc, ?_⟩
  cases hword : decodeWord s.fetchWord with
  | none =>
    rw [runCycle_of_illegal s hpc hword] at h
    exact ⟨_, (Host.Outcome.next.inj h).symm⟩
  | some i =>
    rw [runCycle_of_decodes s i hpc hword] at h
    obtain ⟨k, -, hlatch⟩ := exec_faulted (s := s.advance) hs h ht
    obtain ⟨-, hencode⟩ := decodedWordsEncodeBack s.fetchWord i hword
    have hfetched : s.advance.pc - 2 = s.pc := BitVec.add_sub_cancel s.pc 2
    rw [hencode, hfetched] at hlatch
    exact ⟨k, hlatch⟩

/-- From a pc that can be fetched from, the advance adds 2 without a wrap (R102). -/
theorem advance_pc_toNat (s : State) (h : s.pc.toNat ≤ 4094) : s.advance.pc.toNat = s.pc.toNat + 2 := by
  have hadd : s.advance.pc.toNat = (s.pc.toNat + 2) % 65536 := BitVec.toNat_add _ _
  omega

/-- A fault latched before the advance stays inside the frame of a faulted TICK (R255). -/
theorem keeps_latch (s : State) (k : ErrorKind) (op addr : Word) :
    Keeps { pc := true, drawFlag := true, run := true, record := true } s (s.latch k op addr) :=
  { (raised_latch s k op addr).rest with pc := nofun, drawFlag := nofun }

/-- A fault latched after the advance stays inside the frame of a faulted TICK (R255). -/
theorem keeps_advance_latch (s : State) (k : ErrorKind) (op addr : Word) :
    Keeps { pc := true, drawFlag := true, run := true, record := true } s (s.advance.latch k op addr) :=
  { (raised_latch s.advance k op addr).rest with pc := nofun, drawFlag := nofun }

/-- Settles O9: the two ways of a faulted cycle, each with its pc, draw flag and record. -/
theorem tickFaultsArePrecise : Obligations.TickFaultsArePrecise := by
  unfold Obligations.TickFaultsArePrecise
  intro s u t htick hs hstep ht
  obtain ⟨hurun, hupc, hudraw, -, hufetch, -⟩ := ticksNext_fields s u htick
  rw [step_eq_runCycle s u htick hs] at hstep
  rw [← hupc, ← hudraw, ← hufetch]
  rcases runCycle_faulted (hurun.trans hs) hstep ht with ⟨hpc, rfl⟩ | ⟨hpc, k, rfl⟩
  · exact ⟨nofun, rfl, fun _ => ⟨rfl, rfl, rfl⟩, fun hle => absurd hpc (Nat.not_lt.2 hle), keeps_latch u _ _ _⟩
  · exact ⟨nofun, rfl, fun hlt => absurd hlt (Nat.not_lt.2 hpc), fun _ => ⟨advance_pc_toNat u hpc, rfl, rfl⟩,
      keeps_advance_latch u k _ _⟩

/-! ### The frozen core (R254) -/

/-- Settles O48: TICK, TMR and KEY do nothing in FAULTED, and a LOAD does there what it does anywhere. -/
theorem faultedCoreIsFrozen : Obligations.FaultedCoreIsFrozen := by
  unfold Obligations.FaultedCoreIsFrozen
  intro s hs
  obtain ⟨-, hfaulted, -⟩ := tickByRunState s
  obtain ⟨habsent, htooLong⟩ := badImageRaisesInvalidProgram s
  refine ⟨hfaulted hs, ?_, fun k p => key_of_not_live s k.val p (.inr hs),
    fun bytes hfits => ⟨_, load_of_fits s bytes hfits, rfl, rfl, rfl, rfl⟩, htooLong, habsent⟩
  rw [perform, s.timerTick_of_not_live (.inr hs)]

end Sys2Proof.Machine
end

section
/-! The family 70_reset_and_hazards: the end of a run (spec 70_reset_and_hazards R310). -/

namespace Sys2Proof.Machine

/-! ### A jump to its own address (R109, R310) -/

/-- An address inside memory is its own low 12 bits, widened again. -/
theorem addrWord_setWidth (a : Word) (h : a.toNat < 4096) : addrWord (a.setWidth 12) = a := by
  apply BitVec.eq_of_toNat_eq
  rw [addrWord_toNat, BitVec.toNat_setWidth, Nat.mod_eq_of_lt h]

/-- Where a run has ended normally, the word fetched is a jump to pc. -/
theorem fetchWord_of_endedNormally (s : State) (h : s.endedNormally) :
    s.fetchWord = encode (.jp (s.pc.setWidth 12)) := by
  obtain ⟨-, hpc, hbytes⟩ := h
  have hpc12 : s.pc.toNat % 2 ^ 12 = s.pc.toNat := Nat.mod_eq_of_lt (by omega)
  apply BitVec.eq_of_toNat_eq
  rw [State.fetchWord, State.readWord, wordOfBytes_toNat, hbytes, encode, wordNNN_toNat, BitVec.toNat_setWidth, hpc12]
  rfl

/-- A jump executed after the advance to the address it was fetched from leaves the draw flag clear and every other
field as it was. -/
theorem exec_jp_self (s : State) (h : s.pc.toNat < 4096) :
    exec (.jp (s.pc.setWidth 12)) s.advance = .next { s with draw := false } := by
  rw [exec, execJp, addrWord_setWidth s.pc h]
  rfl

/-- Settles O53: the word fetched decodes to a jump to pc, which undoes the pc advance and keeps the draw-flag clear. -/
theorem selfJumpIsFixedPoint : Obligations.SelfJumpIsFixedPoint := by
  unfold Obligations.SelfJumpIsFixedPoint
  intro s u hended htick
  obtain ⟨-, hupc, -, -, hufetch, -⟩ := ticksNext_fields s u htick
  have hfetch := fetchWord_of_endedNormally s hended
  obtain ⟨hrun, hpc, -⟩ := hended
  rw [← hupc] at hpc
  rw [← hufetch, ← hupc] at hfetch
  have hword : decodeWord u.fetchWord = some (.jp (u.pc.setWidth 12)) := by
    rw [hfetch, decodeWord_encode _ rfl]
  rw [step_eq_runCycle s u htick hrun, runCycle_of_decodes u _ hpc hword]
  exact exec_jp_self u (by omega)

end Sys2Proof.Machine
end
